-- ==== Sys2Proof/Word.lean ====
section
/-! DEFINITION. The word, byte and 16-byte block types of the engine (R12, R13, R101, R203). -/

namespace Sys2Proof

/-- One byte of a byte sequence (R13). -/
abbrev Byte := BitVec 8

/-- The value of one 32-bit register, and the data of one host access (R101, R201). -/
abbrev Word := BitVec 32

/-- A byte sequence `Bytes(n)`, index 0 first (R13). -/
abbrev Bytes := List Byte

/-- Four consecutive registers `NAME0` to `NAME3`, `w0` at the lowest offset: a 16-byte value packed by R203.
The AES state of R501 has the same form, `wc` being its column `c`. -/
structure Block where
  w0 : Word
  w1 : Word
  w2 : Word
  w3 : Word
  deriving DecidableEq, Repr

end Sys2Proof
end

