-- ==== Sys2Proof/Syntax.lean ====
section
/-! DEFINITION. The command words of the CTRL register (R300, R301): one constructor per row of spec/opcode_table.json. -/

namespace Sys2Proof

/-- A command word. `ie` is bit 8, the new value of CTRL.IE; the reserved bits [7:4] and [31:9] are ignored by the
engine (R300, R302) and are no part of the instruction. Every field has exactly the width its row gives it, so every
term of this type is a well-formed instruction. -/
inductive Instr where
  /-- CMD 0x0: starts no command, only updates IE (R702). -/
  | noCmd (ie : Bool)
  /-- CMD 0x1: the whole derivation (R706). -/
  | gen (ie : Bool)
  /-- CMD 0x2: BcdTime and offset (R407). -/
  | time (ie : Bool)
  /-- CMD 0x3: packs OPND into a BCD byte (R405). -/
  | bcdenc (ie : Bool)
  /-- CMD 0x4: unpacks the BCD byte OPND (R406). -/
  | bcddec (ie : Bool)
  /-- CMD 0x5: AES-128 encryption of AUXBLK under SEED (R511). -/
  | aesenc (ie : Bool)
  /-- CMD 0x6: clears every register but CTRL and STATUS (R708). -/
  | zeroize (ie : Bool)
  /-- CMD 0x7: reserved (R709). -/
  | rsvd7 (ie : Bool)
  /-- CMD 0x8 to 0xF: reserved (R709). `low` is CMD[2:0]; CMD[3] is 1. -/
  | rsvdHigh (low : BitVec 3) (ie : Bool)
  deriving DecidableEq, Repr

end Sys2Proof
end

