-- ==== Sys2Proof/Decode.lean ====
section
/-! DEFINITION. The decoder of the CTRL command word, total on every 32-bit word (R300 to R302), and its encoder. -/

namespace Sys2Proof

/-- `CMD`, bits [3:0] of the command word (R300). -/
def cmdField (v : Word) : BitVec 4 := v.extractLsb' 0 4

/-- `IE`, bit [8] of the command word (R300). -/
def ieField (v : Word) : Bool := v.getLsbD 8

/-- The command map of R301: each of the 16 values of CMD selects exactly one row. -/
def decodeCmd (cmd : BitVec 4) (ie : Bool) : Instr :=
  match cmd with
  | 0x0#4 => .noCmd ie
  | 0x1#4 => .gen ie
  | 0x2#4 => .time ie
  | 0x3#4 => .bcdenc ie
  | 0x4#4 => .bcddec ie
  | 0x5#4 => .aesenc ie
  | 0x6#4 => .zeroize ie
  | 0x7#4 => .rsvd7 ie
  | c => .rsvdHigh (c.extractLsb' 0 3) ie

/-- The instruction of a command word; the reserved bits are ignored (R300, R302). -/
def decode (v : Word) : Instr := decodeCmd (cmdField v) (ieField v)

/-- The command code `CMD` of an instruction (R301). -/
def Instr.code : Instr → BitVec 4
  | .noCmd _ => 0x0#4
  | .gen _ => 0x1#4
  | .time _ => 0x2#4
  | .bcdenc _ => 0x3#4
  | .bcddec _ => 0x4#4
  | .aesenc _ => 0x5#4
  | .zeroize _ => 0x6#4
  | .rsvd7 _ => 0x7#4
  | .rsvdHigh low _ => 1#1 ++ low

/-- The new value of CTRL.IE that an instruction carries (R300). -/
def Instr.ie : Instr → Bool
  | .noCmd ie | .gen ie | .time ie | .bcdenc ie | .bcddec ie | .aesenc ie | .zeroize ie | .rsvd7 ie => ie
  | .rsvdHigh _ ie => ie

/-- The command word of an instruction, its reserved bits 0 (R300). -/
def encode (i : Instr) : Word := (if i.ie then 0x100#32 else 0#32) ||| i.code.setWidth 32

/-- What the decoder reads from an instruction whose `nbits` bits are `w`. A command word is one 32-bit word (R300),
so a shorter listing leaves its upper bits 0 and a longer one is no command word. -/
def decodeTableWord (nbits w : Nat) : Option Instr :=
  if nbits ≤ 32 then some (decode (BitVec.ofNat 32 (w % 2 ^ nbits))) else none

theorem decode_word_noCmd : decode 0x00000100#32 = .noCmd true := by decide
theorem decode_word_gen : decode 0x00000001#32 = .gen false := by decide
theorem decode_word_time : decode 0x00000002#32 = .time false := by decide
theorem decode_word_bcdenc : decode 0x00000103#32 = .bcdenc true := by decide
theorem decode_word_bcddec : decode 0x00000004#32 = .bcddec false := by decide
theorem decode_word_aesenc : decode 0x00000105#32 = .aesenc true := by decide
theorem decode_word_zeroize : decode 0x00000006#32 = .zeroize false := by decide
theorem decode_word_rsvd7 : decode 0x00000007#32 = .rsvd7 false := by decide
theorem decode_word_rsvdHigh : decode 0x00000009#32 = .rsvdHigh 1#3 false := by decide

end Sys2Proof
end

