-- ==== Sys2Proof/Machine/Bytes.lean ====
section
/-! DEFINITION. Byte order: how byte sequences are packed into registers (R13, R203, R204). -/

namespace Sys2Proof.Machine

/-- `BE32` of four bytes (R13): the first byte is the most significant. -/
def be32 (b0 b1 b2 b3 : Byte) : Word := b0 ++ b1 ++ b2 ++ b3

/-- Byte `j mod 4` of a register: bits [31 - 8*(j mod 4) : 24 - 8*(j mod 4)] (R203). -/
def byteAt (w : Word) (j : Nat) : Byte := w.extractLsb' (24 - 8 * (j % 4)) 8

/-- The four bytes of a register, in the order of R203. -/
def wordBytes (w : Word) : Bytes := [byteAt w 0, byteAt w 1, byteAt w 2, byteAt w 3]

/-- The register `R(k)` of a byte sequence (R203): `BE32(B[4k .. 4k+4))`; a byte out of range counts as 0. -/
def packWord (b : Bytes) (k : Nat) : Word :=
  be32 (b.getD (4 * k) 0) (b.getD (4 * k + 1) 0) (b.getD (4 * k + 2) 0) (b.getD (4 * k + 3) 0)

/-- The byte sequence `Bytes(16)` held in four registers (R16, R203). -/
def blockBytes (b : Block) : Bytes := wordBytes b.w0 ++ wordBytes b.w1 ++ wordBytes b.w2 ++ wordBytes b.w3

/-- Four registers from a byte sequence `Bytes(16)` (R16, R203). -/
def packBlock (b : Bytes) : Block :=
  { w0 := packWord b 0, w1 := packWord b 1, w2 := packWord b 2, w3 := packWord b 3 }

/-- `b` followed by zero bytes up to length `n`. -/
def padTo (n : Nat) (b : Bytes) : Bytes := b ++ List.replicate (n - b.length) 0x00#8

/-- The first digit of a packed-BCD byte, bits [7:4] (R204). -/
def highNibble (b : Byte) : BitVec 4 := b.extractLsb' 4 4

/-- The second digit of a packed-BCD byte, bits [3:0] (R204). -/
def lowNibble (b : Byte) : BitVec 4 := b.extractLsb' 0 4

/-- Word `w` of a group of four registers. -/
def getWord (b : Block) (w : Fin 4) : Word :=
  match w with
  | 0 => b.w0
  | 1 => b.w1
  | 2 => b.w2
  | 3 => b.w3

/-- A group of four registers with word `w` replaced. -/
def setWord (b : Block) (w : Fin 4) (v : Word) : Block :=
  match w with
  | 0 => { b with w0 := v }
  | 1 => { b with w1 := v }
  | 2 => { b with w2 := v }
  | 3 => { b with w3 := v }

end Sys2Proof.Machine
end

