-- ==== Sys2Proof/Config.lean ====
section
/-! DEFINITION. The parameters that the spec leaves to the implementation (R10, D1, D16). They are fixed for a machine: `Machine.State` carries one value of `Params` and no step changes it (log entry 5). No result of any command is left open by the spec, so there is no free value. -/

namespace Sys2Proof

/-- The latencies `LAT_*` of R10 and R705, in cycles from acceptance to completion; `rsvd` is for every reserved code. -/
structure Latencies where
  gen : Nat
  time : Nat
  bcdenc : Nat
  bcddec : Nat
  aesenc : Nat
  zeroize : Nat
  rsvd : Nat
  deriving DecidableEq, Repr

/-- The parameters of R10. -/
structure Params where
  /-- Host-bus address of register offset 0x000. -/
  base : Nat
  /-- Bit position of the digit-count field in FLAGS (R651). -/
  digitShift : Nat
  /-- Bit position of the interval-selector field in FLAGS (R652). -/
  intervalShift : Nat
  /-- The latencies (R705). -/
  lat : Latencies
  deriving DecidableEq, Repr

/-- The least value R10 allows each latency, where its column "reference" gives none.
DESIGN CHOICE (log entry 5), unsafe: a claim at these values says nothing of other latencies. -/
def Latencies.least : Latencies :=
  { gen := 1, time := 1, bcdenc := 1, bcddec := 1, aesenc := 1, zeroize := 1, rsvd := 1 }

/-- The column "reference" of R10, the configuration of every vector of 95_test_vectors.md (R653).
DESIGN CHOICE (log entry 5), unsafe: a claim at these values says nothing of another layout. -/
def Params.reference : Params := { base := 0x00000000, digitShift := 4, intervalShift := 1, lat := Latencies.least }

end Sys2Proof
end

