-- ==== Sys2Proof/Machine/State.lean ====
section
/-! DEFINITION. The state of the engine, register by register (10_state.md), and of its host (R310, R700), as plain data; the reasons a step can stop; the state after reset (R900). -/

namespace Sys2Proof.Machine

/-- The completion codes of R801, by name. -/
inductive ErrCode where
  | noError | badCmd | serial | seed | pin | time | underflow | bcdDom | bcdDig
  /-- Kept for the source's taxonomy; no command raises it (R810). -/
  | cipher
  deriving DecidableEq, Repr

/-- STATUS, field by field (R103). BUSY is not here: it is the sequencer being Busy (R131). -/
structure Status where
  done : Bool
  err : Bool
  haz : Bool
  errCode : ErrCode
  lastCmd : BitVec 4
  deriving DecidableEq, Repr

/-- DIGITS, field by field (R117). -/
structure Digits where
  ndig : BitVec 4
  len : BitVec 4
  charLen : BitVec 5
  deriving DecidableEq, Repr

/-- The registers a command reads: LOADED and every register the host can write but CTRL and STATUS (R104 to R109, R111,
R112), each as the 32-bit word of the map, reserved bits 0. -/
structure Inputs where
  loaded : Word
  flags : Word
  pin : Word
  serial0 : Word
  serial1 : Word
  time0 : Word
  time1 : Word
  opnd : Word
  seed : Block
  auxBlk : Block
  deriving DecidableEq, Repr

/-- The read-only result registers (R110, R113 to R121). -/
structure Results where
  result : Word
  auxOut : Block
  bcdTime0 : Word
  bcdTime1 : Word
  offset : Word
  word : Word
  digits : Digits
  codeSum0 : Word
  codeSum1 : Word
  codeChar : Block
  k0 : Block
  k1 : Block
  rk0 : Block
  rk1 : Block
  rk2 : Block
  rk3 : Block
  rk4 : Block
  deriving DecidableEq, Repr

/-- The sequencer (R131): the command code in flight and the number of cycles left. -/
inductive Sequencer where
  | idle
  | busy (cmd : BitVec 4) (remaining : Nat)
  deriving DecidableEq, Repr

/-- The two agents of R700. -/
inductive Agent where
  | host
  | engine
  deriving DecidableEq, Repr

/-- One host operation (R201, R310, R900). `addr` is a bus address, `n` an access width in bytes; data of another width
than 4 bytes is not held, since such an access is refused whatever it carries (R202). -/
inductive BusOp where
  /-- `MemWrite(addr, n, v)`; `WR off, v` is this with `addr = BASE + off` and `n = 4`. -/
  | write (addr n : Nat) (v : Word)
  /-- `MemRead(addr, n)`; `RD off`, and with `expect` the form `RD off == v`. -/
  | read (addr n : Nat) (expect : Option Word)
  /-- `POLL off, mask, val` at the address `BASE + off`. -/
  | poll (addr : Nat) (mask val : Word)
  /-- Wait until `irq` is high. -/
  | wfi
  /-- Assert the engine's reset input (R900). DESIGN CHOICE (log entry 21), unsafe: the spec does not say when the host may; here
  it is an operation in program order, so one behind a POLL that never holds or a WFI with `irq` low is never performed. -/
  | reset
  deriving DecidableEq, Repr

/-- A value the host recorded (R310), with the value it expected, if it named one. -/
structure ReadRecord where
  addr : Nat
  value : Word
  expect : Option Word
  deriving DecidableEq, Repr

/-- The engine's registers and sequencer, its fixed parameters, and the host. -/
structure State where
  /-- R10; no step changes it. -/
  params : Params
  /-- CTRL.IE (R102), the only bit of CTRL that is held. -/
  ie : Bool
  /-- STATUS but for BUSY (R103). -/
  status : Status
  /-- The registers a command reads. -/
  inp : Inputs
  /-- The registers a command writes on completion. -/
  out : Results
  /-- R131. -/
  seq : Sequencer
  /-- The operations the host has still to perform, the next one first (the model's own, log entry 3). -/
  pending : List BusOp
  /-- What the host recorded, the newest first (the model's own, log entry 3). -/
  reads : List ReadRecord
  /-- Which agent steps, each time both have a step enabled (R700, R815; the model's own free choice, log entry 4). -/
  turns : List Agent
  deriving DecidableEq, Repr

/-- Why a step stops with a fault. -/
inductive Fault where
  /-- `BusError(off)` (R811): raised by a host access that R202, R207 or R208 refuses; the spec makes it a fault of the
  host program, and no register is changed. Safe: no claim about such a program is provable. -/
  | busError (off : Nat)
  deriving DecidableEq, Repr

/-- Why the model gives a step no meaning. -/
inductive Refusal where
  /-- An instruction that has no meaning yet. No arm raises it. Safe. -/
  | notModelled (mnemonic : String)
  /-- A host access outside the window `[BASE, BASE + 0x100)`: "Nothing outside the window is defined by this spec"
  (R212). Raised by the host's bus accesses. Safe: the model stops where the platform goes on. -/
  | outsideWindow (addr : Nat)
  deriving DecidableEq, Repr

/-- 16 zero bytes. -/
def zeroBlock : Block := { w0 := 0, w1 := 0, w2 := 0, w3 := 0 }

/-- The reset column of R101 for STATUS. -/
def Status.reset : Status := { done := false, err := false, haz := false, errCode := .noError, lastCmd := 0 }

/-- The reset column of R101 for LOADED and the host-writable registers: FLAGS is 17369, all others 0 (R900). -/
def Inputs.reset : Inputs :=
  { loaded := 0, flags := 0x000043D9, pin := 0, serial0 := 0, serial1 := 0, time0 := 0, time1 := 0, opnd := 0,
    seed := zeroBlock, auxBlk := zeroBlock }

/-- The reset column of R101 for the result registers. -/
def Results.reset : Results :=
  { result := 0, auxOut := zeroBlock, bcdTime0 := 0, bcdTime1 := 0, offset := 0, word := 0,
    digits := { ndig := 0, len := 0, charLen := 0 }, codeSum0 := 0, codeSum1 := 0, codeChar := zeroBlock,
    k0 := zeroBlock, k1 := zeroBlock, rk0 := zeroBlock, rk1 := zeroBlock, rk2 := zeroBlock, rk3 := zeroBlock,
    rk4 := zeroBlock }

/-- The machine right after reset (R900), with the reference parameters of R10 (log entry 5) and a host that has nothing
to do (log entries 3 and 4). -/
def State.reset : State :=
  { params := Params.reference, ie := false, status := Status.reset, inp := Inputs.reset, out := Results.reset,
    seq := .idle, pending := [], reads := [], turns := [] }

end Sys2Proof.Machine
end

