-- ==== Sys2Proof/Machine/Ops.lean ====
section
/-! DEFINITION. The named operations over the engine's state: the register map and its accesses (R101 to R121, R202 to R210), acceptance, completion and refusal of a command (R701 to R704), reset (R900) and the interrupt output (R133). The engine takes no trap and has no return from one (R816); `complete` is how a command reports an error (R800). -/

namespace Sys2Proof.Machine

/-- The registers of the map of R101, by name. -/
inductive Reg where
  | ctrl | status | loaded | flags | pin | serial0 | serial1 | time0 | time1 | opnd | result
  | seed (w : Fin 4) | auxBlk (w : Fin 4) | auxOut (w : Fin 4)
  | bcdTime0 | bcdTime1 | offset | word | digits | codeSum0 | codeSum1
  | codeChar (w : Fin 4) | k0 (w : Fin 4) | k1 (w : Fin 4) | rk (r : Fin 5) (w : Fin 4)
  deriving DecidableEq, Repr

/-- The four rows of a register group: word `w` sits at `base + 4*w` (R101). -/
def groupRows (base : Nat) (f : Fin 4 → Reg) : List (Nat × Reg) :=
  [(base, f 0), (base + 4, f 1), (base + 8, f 2), (base + 12, f 3)]

/-- The register map of R101; 0x02C and 0x07C hold no register. -/
def regMap : List (Nat × Reg) :=
  [(0x000, .ctrl), (0x004, .status), (0x008, .loaded), (0x00C, .flags), (0x010, .pin), (0x014, .serial0),
   (0x018, .serial1), (0x01C, .time0), (0x020, .time1), (0x024, .opnd), (0x028, .result)]
  ++ groupRows 0x030 .seed ++ groupRows 0x040 .auxBlk ++ groupRows 0x050 .auxOut
  ++ [(0x060, .bcdTime0), (0x064, .bcdTime1), (0x068, .offset), (0x06C, .word), (0x070, .digits),
      (0x074, .codeSum0), (0x078, .codeSum1)]
  ++ groupRows 0x080 .codeChar ++ groupRows 0x090 .k0 ++ groupRows 0x0A0 .k1
  ++ groupRows 0x0B0 (.rk 0) ++ groupRows 0x0C0 (.rk 1) ++ groupRows 0x0D0 (.rk 2) ++ groupRows 0x0E0 (.rk 3)
  ++ groupRows 0x0F0 (.rk 4)

/-- The register at a byte offset, if the map lists one (R101, R207). -/
def regAt (off : Nat) : Option Reg := regMap.lookup off

/-- The access column of R101: RW, W1C and WO registers take a write, RO registers do not (R208). -/
def writable : Reg → Bool
  | .ctrl | .status | .flags | .pin | .serial0 | .serial1 | .time0 | .time1 | .opnd | .seed _ | .auxBlk _ => true
  | .loaded | .result | .auxOut _ | .bcdTime0 | .bcdTime1 | .offset | .word | .digits | .codeSum0 | .codeSum1
  | .codeChar _ | .k0 _ | .k1 _ | .rk _ _ => false

/-- The bits of a register that are not reserved (R102 to R121). CTRL.CMD is write-only and reads 0 (R102). -/
def fieldMask : Reg → Word
  | .ctrl => 0x00000100
  | .status => 0x00000FFF
  | .loaded => 0x000000FF
  | .flags => 0x0000FFFF
  | .serial1 => 0xFFFF0000
  | .time0 => 0x0000FFFF
  | .opnd => 0x000000FF
  | .result => 0x000000FF
  | .offset => 0x0000000F
  | .digits => 0x00001FFF
  | .pin | .serial0 | .time1 | .seed _ | .auxBlk _ | .auxOut _ | .bcdTime0 | .bcdTime1 | .word | .codeSum0 | .codeSum1
  | .codeChar _ | .k0 _ | .k1 _ | .rk _ _ => 0xFFFFFFFF

/-- The numbers of R801. -/
def errBits : ErrCode → BitVec 4
  | .noError => 0
  | .badCmd => 1
  | .serial => 2
  | .seed => 3
  | .pin => 4
  | .time => 5
  | .underflow => 6
  | .bcdDom => 7
  | .bcdDig => 8
  | .cipher => 9

/-- STATUS.BUSY (R103): 1 exactly when the sequencer is `Busy` (R131). -/
def isBusy (s : State) : Bool :=
  match s.seq with
  | .idle => false
  | .busy _ _ => true

/-- CTRL as the host reads it (R102). -/
def ctrlWord (s : State) : Word := 0#23 ++ BitVec.ofBool s.ie ++ 0#8

/-- STATUS as the host reads it (R103). -/
def statusWord (s : State) : Word :=
  0#20 ++ s.status.lastCmd ++ errBits s.status.errCode ++ BitVec.ofBool s.status.haz ++ BitVec.ofBool s.status.err
    ++ BitVec.ofBool s.status.done ++ BitVec.ofBool (isBusy s)

/-- DIGITS as the host reads it (R117). -/
def digitsWord (d : Digits) : Word := 0#19 ++ d.charLen ++ d.len ++ d.ndig

/-- The block of cascade round `r + 1` (R121). -/
def rkBlock (o : Results) (r : Fin 5) : Block :=
  match r with
  | 0 => o.rk0
  | 1 => o.rk1
  | 2 => o.rk2
  | 3 => o.rk3
  | 4 => o.rk4

/-- The word held by a register. -/
def held (r : Reg) (s : State) : Word :=
  match r with
  | .ctrl => ctrlWord s
  | .status => statusWord s
  | .loaded => s.inp.loaded
  | .flags => s.inp.flags
  | .pin => s.inp.pin
  | .serial0 => s.inp.serial0
  | .serial1 => s.inp.serial1
  | .time0 => s.inp.time0
  | .time1 => s.inp.time1
  | .opnd => s.inp.opnd
  | .result => s.out.result
  | .seed w => getWord s.inp.seed w
  | .auxBlk w => getWord s.inp.auxBlk w
  | .auxOut w => getWord s.out.auxOut w
  | .bcdTime0 => s.out.bcdTime0
  | .bcdTime1 => s.out.bcdTime1
  | .offset => s.out.offset
  | .word => s.out.word
  | .digits => digitsWord s.out.digits
  | .codeSum0 => s.out.codeSum0
  | .codeSum1 => s.out.codeSum1
  | .codeChar w => getWord s.out.codeChar w
  | .k0 w => getWord s.out.k0 w
  | .k1 w => getWord s.out.k1 w
  | .rk r w => getWord (rkBlock s.out r) w

/-- What an accepted read of a register returns (R208, R210): SEED reads 0 (R111), every other register its value with
each reserved bit read as 0. -/
def readReg (r : Reg) (s : State) : Word :=
  match r with
  | .seed _ => 0
  | r => held r s &&& fieldMask r

/-- LOADED with one bit set (R104, R209). -/
def setLoaded (inp : Inputs) (bit : Nat) : Inputs := { inp with loaded := inp.loaded ||| (1#32 <<< bit) }

/-- The last branch of R209 on the input registers: the value stored has its reserved bits forced to 0, and a SEED,
SERIAL or TIME word sets its LOADED bit. Registers that this branch never sees are left as they are. -/
def storeInput (r : Reg) (v : Word) (inp : Inputs) : Inputs :=
  let v := v &&& fieldMask r
  match r with
  | .flags => { inp with flags := v }
  | .pin => { inp with pin := v }
  | .opnd => { inp with opnd := v }
  | .auxBlk w => { inp with auxBlk := setWord inp.auxBlk w v }
  | .seed w => setLoaded { inp with seed := setWord inp.seed w v } w.val
  | .serial0 => setLoaded { inp with serial0 := v } 4
  | .serial1 => setLoaded { inp with serial1 := v } 5
  | .time0 => setLoaded { inp with time0 := v } 6
  | .time1 => setLoaded { inp with time1 := v } 7
  | .ctrl | .status | .loaded | .result | .auxOut _ | .bcdTime0 | .bcdTime1 | .offset | .word | .digits | .codeSum0
  | .codeSum1 | .codeChar _ | .k0 _ | .k1 _ | .rk _ _ => inp

/-- An accepted write to an input register (R209). -/
def storeReg (r : Reg) (v : Word) (s : State) : State := { s with inp := storeInput r v s.inp }

/-- STATUS after an accepted write of `v` (R209, R103): the W1C bits; writing 1 to ERR clears ERRCODE too. -/
def clearStatus (v : Word) (t : Status) : Status :=
  { t with
    done := t.done && !v.getLsbD 1
    err := t.err && !v.getLsbD 2
    errCode := if v.getLsbD 2 then .noError else t.errCode
    haz := t.haz && !v.getLsbD 3 }

/-- An accepted write to STATUS, while Busy too (R209). -/
def writeStatus (v : Word) (s : State) : State := { s with status := clearStatus v s.status }

/-- A write that is refused because the engine is Busy (R703, R812): it writes nothing and sets HAZ. -/
def dropWrite (s : State) : State := { s with status := { s.status with haz := true } }

/-- `LAT_c` of a command code (R10, R701): `LAT_RSVD` for 0x7 to 0xF. Code 0 is no command and is never accepted. -/
def latency (l : Latencies) (c : BitVec 4) : Nat :=
  match c with
  | 0x1#4 => l.gen
  | 0x2#4 => l.time
  | 0x3#4 => l.bcdenc
  | 0x4#4 => l.bcddec
  | 0x5#4 => l.aesenc
  | 0x6#4 => l.zeroize
  | _ => l.rsvd

/-- Acceptance of a command with code `c` and new CTRL.IE `ie` (R701). HAZ is not changed. -/
def accept (c : BitVec 4) (ie : Bool) (s : State) : State :=
  { s with
    ie := ie
    status := { s.status with done := false, err := false, errCode := .noError, lastCmd := c }
    seq := .busy c (latency s.params.lat c) }

/-- `complete(code)` of R704: BUSY falls, DONE rises, ERR and ERRCODE report the outcome. -/
def complete (code : ErrCode) (s : State) : State :=
  { s with
    status := { s.status with done := true, err := decide (code ≠ .noError), errCode := code }
    seq := .idle }

/-- The two steps of a command with code `c`, `c` not 0, and the answer to it at the wrong time (log entry 1): written to
CTRL while `Idle` it is accepted (R701); in flight, its completion step evaluates its rule (R704), which `schedule` asks
for once the latency has elapsed; written while another command is in flight it is dropped (R703). -/
def commandStep (c : BitVec 4) (ie : Bool) (rule : State → State) (s : State) : Host.Outcome State Fault Refusal :=
  match s.seq with
  | .idle => .next (accept c ie s)
  | .busy d _ => if d = c then .next (rule s) else .next (dropWrite s)

/-- The interrupt output (R133, R814). -/
def irq (s : State) : Bool := s.status.done && s.ie

/-- The reset input (R900, R901): every register, CTRL and STATUS included, takes its reset value and the sequencer
becomes `Idle`. The parameters and the host are not the engine's. -/
def resetEngine (s : State) : State :=
  { s with ie := false, status := Status.reset, inp := Inputs.reset, out := Results.reset, seq := .idle }

end Sys2Proof.Machine
end

