-- ==== Sys2Proof/Machine/Bus.lean ====
section
/-! DEFINITION. The two agents (R700): the host's bus accesses (R201 to R210), its other operations (R310, R900), the engine's completion step (R704), and which of them moves (R815). What they come to is either an instruction to run or an answer. -/

namespace Sys2Proof.Machine

/-- Where a bus access lands (R202, R207, R212). -/
inductive Landing where
  /-- Not in the window: not the engine's (R212). -/
  | outside
  /-- Refused with `BusError(off)`. -/
  | busError (off : Nat)
  /-- An aligned 32-bit access to the register `r` at offset `off`. -/
  | reg (off : Nat) (r : Reg)
  deriving DecidableEq, Repr

/-- What an agent's move comes to. -/
inductive Move where
  /-- The sequencer runs the command word `i`, from the state `s`. -/
  | run (i : Instr) (s : State)
  /-- The move is a host operation or nothing, and this is its outcome. -/
  | answer (o : Host.Outcome State Fault Refusal)

/-- Decoding of an access of `n` bytes at the bus address `addr` (R202, R207). -/
def landing (p : Params) (addr n : Nat) : Landing :=
  if addr < p.base ∨ p.base + 0x100 ≤ addr then .outside
  else if n ≠ 4 ∨ (addr - p.base) % 4 ≠ 0 then .busError (addr - p.base)
  else
    match regAt (addr - p.base) with
    | none => .busError (addr - p.base)
    | some r => .reg (addr - p.base) r

/-- A host write (R208, R209, R703), `s` being the state with the operation taken off the host's list. A command word
written to CTRL while `Idle` runs; every other write is answered here. -/
def hostWrite (addr n : Nat) (v : Word) (s : State) : Move :=
  match landing s.params addr n with
  | .outside => .answer (.refused (.outsideWindow addr))
  | .busError off => .answer (.fault (.busError off))
  | .reg off r =>
    if writable r then
      match r with
      | .status => .answer (.next (writeStatus v s))
      | r =>
        if isBusy s then .answer (.next (dropWrite s))
        else
          match r with
          | .ctrl => .run (decode v) s
          | r => .answer (.next (storeReg r v s))
    else .answer (.fault (.busError off))

/-- A host read (R208, R210): the outcome of handing the value read to `k`. -/
def hostRead (addr n : Nat) (s : State) (k : Word → State) : Move :=
  match landing s.params addr n with
  | .outside => .answer (.refused (.outsideWindow addr))
  | .busError off => .answer (.fault (.busError off))
  | .reg _ r => .answer (.next (k (readReg r s)))

/-- The host records a value (R310). -/
def record (addr : Nat) (v : Word) (expect : Option Word) (s : State) : State :=
  { s with reads := { addr := addr, value := v, expect := expect } :: s.reads }

/-- The host's move: its next operation, `rest` being those after it (R310). A POLL whose condition fails stays on the
list, to be read again, and a reset behind it waits (DESIGN CHOICE, unsafe: log entry 21). -/
def hostMove (op : BusOp) (rest : List BusOp) (s : State) : Move :=
  match op with
  | .write addr n v => hostWrite addr n v { s with pending := rest }
  | .read addr n expect => hostRead addr n s (fun v => record addr v expect { s with pending := rest })
  | .poll addr mask val =>
    hostRead addr 4 s (fun v =>
      if v &&& mask = val then record addr v none { s with pending := rest } else record addr v none s)
  | .wfi => .answer (.next { s with pending := rest })
  | .reset => .answer (.next (resetEngine { s with pending := rest }))

/-- The engine's move with the command `cmd` in flight: its last cycle is the completion step (R704, R705), an earlier one
only counts down (R131). -/
def engineMove (cmd : BitVec 4) (remaining : Nat) (s : State) : Move :=
  if remaining ≤ 1 then .run (decode (cmd.setWidth 32)) s
  else .answer (.next { s with seq := .busy cmd (remaining - 1) })

/-- The host has a step: an operation left, which is not a WFI that waits for `irq` (R310). A reset behind such a WFI waits
too (DESIGN CHOICE, unsafe: log entry 21). -/
def hostReady (s : State) : Bool :=
  match s.pending with
  | [] => false
  | .wfi :: _ => irq s
  | _ :: _ => true

/-- The host's move, if it has one; else nothing changes. -/
def hostTurn (s : State) : Move :=
  match s.pending with
  | [] => .answer (.next s)
  | op :: rest => if hostReady s then hostMove op rest s else .answer (.next s)

/-- Who moves (R700). The engine has a step only while `Busy`. Where both have one, the head of `turns` says which and is
used up; with no choice left the engine moves, which is the weak fairness of R705 (log entry 4). Where neither has one
nothing changes. -/
def schedule (s : State) : Move :=
  match s.seq with
  | .idle => hostTurn s
  | .busy cmd n =>
    if hostReady s then
      match s.turns with
      | [] => engineMove cmd n s
      | .engine :: rest => engineMove cmd n { s with turns := rest }
      | .host :: rest => hostTurn { s with turns := rest }
    else engineMove cmd n s

/-- `s` with the sequencer `Idle` and a write of the command word `v` to CTRL as the host's next operation, which is where
the next instruction comes from (log entry 3). -/
def placeCommand (v : Word) (s : State) : State :=
  { s with seq := .idle, pending := .write s.params.base 4 v :: s.pending }

end Sys2Proof.Machine
end

