-- ==== Sys2Proof/Machine/Aes.lean ====
section
/-! DEFINITION. AES-128 encryption of one block (R500 to R509), which the spec transcribes from FIPS-197 (log entry 11). The state `S[row][col]` of R501 is a `Block` of columns: column `c` is the word `wc`, and its byte `r` is `S[r][c]`, so loading and storing a block change nothing. -/

namespace Sys2Proof.Machine

/-- Multiplication by x in GF(2^8) (R500). -/
def xtime (a : Byte) : Byte := (a <<< 1) ^^^ (if a.getLsbD 7 then 0x1B#8 else 0x00#8)

/-- The XOR of `xtime^i(a)` over the set bits `i` of the lowest `n` bits of `b`. -/
def gmulBits (n : Nat) (a b : Byte) : Byte :=
  match n with
  | 0 => 0
  | n + 1 => (if b.getLsbD 0 then a else 0) ^^^ gmulBits n (xtime a) (b >>> 1)

/-- The product in GF(2^8) (R500). -/
def gmul (a b : Byte) : Byte := gmulBits 8 a b

/-- The rows of the S-box table of R502, column 0 in the most significant byte. -/
def sboxRows : List (BitVec 128) :=
  [0x637C777BF26B6FC53001672BFED7AB76#128, 0xCA82C97DFA5947F0ADD4A2AF9CA472C0#128,
   0xB7FD9326363FF7CC34A5E5F171D83115#128, 0x04C723C31896059A071280E2EB27B275#128,
   0x09832C1A1B6E5AA0523BD6B329E32F84#128, 0x53D100ED20FCB15B6ACBBE394A4C58CF#128,
   0xD0EFAAFB434D338545F9027F503C9FA8#128, 0x51A3408F929D38F5BCB6DA2110FFF3D2#128]
  ++ [0xCD0C13EC5F974417C4A77E3D645D1973#128, 0x60814FDC222A908846EEB814DE5E0BDB#128,
   0xE0323A0A4906245CC2D3AC629195E479#128, 0xE7C8376D8DD54EA96C56F4EA657AAE08#128,
   0xBA78252E1CA6B4C6E8DD741F4BBD8B8A#128, 0x703EB5664803F60E613557B986C11D9E#128,
   0xE1F8981169D98E949B1E87E9CE5528DF#128, 0x8CA1890DBFE6426841992D0FB054BB16#128]

/-- `SBOX[x]`: row `x[7:4]`, column `x[3:0]` (R502). -/
def sbox (x : Byte) : Byte :=
  (sboxRows.getD (highNibble x).toNat 0).extractLsb' (8 * (15 - (lowNibble x).toNat)) 8

/-- SBOX on each byte of a word. -/
def subWord (w : Word) : Word := be32 (sbox (byteAt w 0)) (sbox (byteAt w 1)) (sbox (byteAt w 2)) (sbox (byteAt w 3))

/-- SubBytes (R503). -/
def subBytes (s : Block) : Block := { w0 := subWord s.w0, w1 := subWord s.w1, w2 := subWord s.w2, w3 := subWord s.w3 }

/-- ShiftRows (R504): `S'[r][c] = S[r][(c + r) mod 4]`. -/
def shiftRows (s : Block) : Block :=
  { w0 := be32 (byteAt s.w0 0) (byteAt s.w1 1) (byteAt s.w2 2) (byteAt s.w3 3)
    w1 := be32 (byteAt s.w1 0) (byteAt s.w2 1) (byteAt s.w3 2) (byteAt s.w0 3)
    w2 := be32 (byteAt s.w2 0) (byteAt s.w3 1) (byteAt s.w0 2) (byteAt s.w1 3)
    w3 := be32 (byteAt s.w3 0) (byteAt s.w0 1) (byteAt s.w1 2) (byteAt s.w2 3) }

/-- MixColumns on the column `(a0, a1, a2, a3)` (R505). -/
def mixColumn (a0 a1 a2 a3 : Byte) : Word :=
  be32 (gmul a0 2 ^^^ gmul a1 3 ^^^ a2 ^^^ a3) (a0 ^^^ gmul a1 2 ^^^ gmul a2 3 ^^^ a3)
    (a0 ^^^ a1 ^^^ gmul a2 2 ^^^ gmul a3 3) (gmul a0 3 ^^^ a1 ^^^ a2 ^^^ gmul a3 2)

/-- MixColumns on the column held in a word. -/
def mixWord (w : Word) : Word := mixColumn (byteAt w 0) (byteAt w 1) (byteAt w 2) (byteAt w 3)

/-- MixColumns (R505). -/
def mixColumns (s : Block) : Block := { w0 := mixWord s.w0, w1 := mixWord s.w1, w2 := mixWord s.w2, w3 := mixWord s.w3 }

/-- AddRoundKey (R506) with the four words `W[4k .. 4k+4)`. -/
def addRoundKey (k s : Block) : Block :=
  { w0 := s.w0 ^^^ k.w0, w1 := s.w1 ^^^ k.w1, w2 := s.w2 ^^^ k.w2, w3 := s.w3 ^^^ k.w3 }

/-- RotWord then SubWord, then `RCON` into byte 0 (R507). -/
def keyCore (rcon : Byte) (t : Word) : Word :=
  be32 (sbox (byteAt t 1) ^^^ rcon) (sbox (byteAt t 2)) (sbox (byteAt t 3)) (sbox (byteAt t 0))

/-- One group of four words of the key expansion (R507): from `W[4k-4 .. 4k)` to `W[4k .. 4k+4)`, `rcon` being `RCON[k]`. -/
def nextKey (rcon : Byte) (k : Block) : Block :=
  let w0 := k.w0 ^^^ keyCore rcon k.w3
  let w1 := k.w1 ^^^ w0
  let w2 := k.w2 ^^^ w1
  let w3 := k.w3 ^^^ w2
  { w0 := w0, w1 := w1, w2 := w2, w3 := w3 }

/-- `RCON[1..10]` (R507). -/
def rcons : List Byte := [0x01, 0x02, 0x04, 0x08, 0x10, 0x20, 0x40, 0x80, 0x1B, 0x36]

/-- The round keys that follow the key `k`, one for each of `rs` (R507). -/
def expandFrom (k : Block) : List Byte → List Block
  | [] => []
  | r :: rs => nextKey r k :: expandFrom (nextKey r k) rs

/-- The round keys 1 to 10 of a key; round key 0 is the key itself (R507). -/
def roundKeys (key : Block) : List Block := expandFrom key rcons

/-- The AES rounds with the round keys `ks` (R509): SubBytes, ShiftRows, MixColumns, AddRoundKey; the last has no
MixColumns. -/
def aesRounds (s : Block) : List Block → Block
  | [] => s
  | [k] => addRoundKey k (shiftRows (subBytes s))
  | k :: ks => aesRounds (addRoundKey k (mixColumns (shiftRows (subBytes s)))) ks

/-- `AES128(key, block)` (R509). -/
def aes128 (key block : Block) : Block := aesRounds (addRoundKey key block) (roundKeys key)

end Sys2Proof.Machine
end

