-- ==== Sys2Proof/Machine/Bcd.lean ====
section
/-! DEFINITION. The BCD codec, the minute masker and the BcdTime encoder (R400 to R404). -/

namespace Sys2Proof.Machine

/-- The BCD encoder (R400). Its domain is 0 to 99 and no rule calls it outside (log entry 12). -/
def bcd (n : Nat) : Byte := BitVec.ofNat 8 (((n / 10) <<< 4) ||| (n % 10))

/-- Both nibbles are decimal digits (R401). -/
def bcdValid (b : Byte) : Bool := decide ((highNibble b).toNat ≤ 9) && decide ((lowNibble b).toNat ≤ 9)

/-- The BCD decoder (R401), called on valid bytes only. -/
def unbcd (b : Byte) : Nat := 10 * (highNibble b).toNat + (lowNibble b).toNat

/-- The minute-cadence masker (R402): 60-second cadence clears the low 2 bits, 30-second cadence the low 1 bit. -/
def maskMinute (m : Byte) (cad60 : Bool) : Byte := if cad60 then m &&& 0xFC#8 else m &&& 0xFE#8

/-- The BcdTime of an instant (R403, R404): each field in its own byte, the year within the century first. -/
def bcdTime (year month day hour : Nat) (minute : Byte) (cad60 : Bool) : Bytes :=
  [bcd (year % 100), bcd ((year / 100) % 100), bcd month, bcd day, bcd hour, bcd (maskMinute minute cad60).toNat,
   0x00#8, 0x00#8]

end Sys2Proof.Machine
end

