-- ==== Sys2Proof/Machine/Flags.lean ====
section
/-! DEFINITION. The flags decoder (R650 to R655). The engine has no condition codes; its status flags are in Machine/Ops.lean (R134). -/

namespace Sys2Proof.Machine

/-- `F = reg[FLAGS][15:0]` (R650). -/
def flagsField (inp : Inputs) : BitVec 16 := inp.flags.extractLsb' 0 16

/-- The digit-count field `v` (R651), at the parameter DIGIT_SHIFT. -/
def digitCount (p : Params) (f : BitVec 16) : Nat := ((f >>> p.digitShift) &&& 0b111#16).toNat

/-- The interval-selector field `iv` (R652), at the parameter INTERVAL_SHIFT. -/
def intervalSel (p : Params) (f : BitVec 16) : Nat := ((f >>> p.intervalShift) &&& 0b11#16).toNat

/-- The cadence bit `cad60` (R652): any nonzero interval selector is 60-second cadence. -/
def interval60 (p : Params) (f : BitVec 16) : Bool := decide (intervalSel p f ≠ 0)

/-- The output length `LEN = v + 1` (R604, R651). -/
def outLen (p : Params) (f : BitVec 16) : Nat := digitCount p f + 1

end Sys2Proof.Machine
end

