-- ==== Sys2Proof/Machine/Operands.lean ====
section
/-! DEFINITION. The operands of the commands as they stand in the input registers (R106 to R111, R303), and the validation predicates over them (R408, R707). -/

namespace Sys2Proof.Machine

/-- `SERIALB : Bytes(6)` (R107). -/
def serialBytes (inp : Inputs) : Bytes := wordBytes inp.serial0 ++ [byteAt inp.serial1 0, byteAt inp.serial1 1]

/-- `YEAR`, TIME0[15:0] (R108). -/
def year (inp : Inputs) : Nat := (inp.time0.extractLsb' 0 16).toNat

/-- `MONTH`, TIME1[31:24] (R108). -/
def month (inp : Inputs) : Nat := (inp.time1.extractLsb' 24 8).toNat

/-- `DAY`, TIME1[23:16] (R108). -/
def day (inp : Inputs) : Nat := (inp.time1.extractLsb' 16 8).toNat

/-- `HOUR`, TIME1[15:8] (R108). -/
def hour (inp : Inputs) : Nat := (inp.time1.extractLsb' 8 8).toNat

/-- `MINUTE`, TIME1[7:0], the raw minute (R108). -/
def minute (inp : Inputs) : Byte := inp.time1.extractLsb' 0 8

/-- The PIN digit `P[i]`, bits [31-4i : 28-4i] of PIN (R106). -/
def pinDigit (inp : Inputs) (i : Nat) : Nat := (inp.pin.extractLsb' (28 - 4 * i) 4).toNat

/-- The eight PIN digits, `P[0]` first (R106). -/
def pinDigits (inp : Inputs) : List Nat := (List.range 8).map (pinDigit inp)

/-- `OPND[7:0]` (R109). -/
def operand (inp : Inputs) : Byte := inp.opnd.extractLsb' 0 8

/-- `SERIAL_OK` (R707): both SERIAL words loaded and every serial byte valid packed BCD. -/
def serialOk (inp : Inputs) : Bool :=
  decide (inp.loaded.extractLsb' 4 2 = 0b11#2) && (serialBytes inp).all bcdValid

/-- `SEED_OK` (R707): every SEED word loaded. -/
def seedOk (inp : Inputs) : Bool := decide (inp.loaded.extractLsb' 0 4 = 0b1111#4)

/-- `PIN_OK` (R707): every PIN digit is decimal. -/
def pinOk (inp : Inputs) : Bool := (pinDigits inp).all (fun d => decide (d ≤ 9))

/-- `TIME_OK` (R408): both TIME words loaded and every field in range; the day is not checked against the month. -/
def timeOk (inp : Inputs) : Bool :=
  decide (inp.loaded.extractLsb' 6 2 = 0b11#2) && decide (year inp ≤ 9999)
    && decide (1 ≤ month inp ∧ month inp ≤ 12) && decide (1 ≤ day inp ∧ day inp ≤ 31)
    && decide (hour inp ≤ 23) && decide ((minute inp).toNat ≤ 59)

/-- The cadence bit of the FLAGS register (R652). -/
def cad60 (p : Params) (inp : Inputs) : Bool := interval60 p (flagsField inp)

/-- `BCDTIMEB` of the instant in TIME0 and TIME1 (R403). -/
def instantTime (p : Params) (inp : Inputs) : Bytes :=
  bcdTime (year inp) (month inp) (day inp) (hour inp) (minute inp) (cad60 p inp)

end Sys2Proof.Machine
end

