-- ==== Sys2Proof/Machine/Cipher.lean ====
section
/-! DEFINITION. The cipher command: AESENC (R511). -/

namespace Sys2Proof.Machine

/-- The rule of AESENC (R511): AUXBLK needs no LOADED bit (R112). -/
def aesencRule (s : State) : State :=
  if seedOk s.inp then complete .noError { s with out := { s.out with auxOut := aes128 s.inp.seed s.inp.auxBlk } }
  else complete .seed s

/-- AESENC, command code 0x5 (R511). -/
def execAesenc (ie : Bool) (s : State) : Host.Outcome State Fault Refusal := commandStep 0x5 ie aesencRule s

end Sys2Proof.Machine
end

