-- ==== Sys2Proof/Machine/Extract.lean ====
section
/-! DEFINITION. Offset selection, window, decimal digits and PIN sums (R600 to R607). -/

namespace Sys2Proof.Machine

/-- The offset of the window (R600 in 60-second cadence, R601 in 30-second cadence), from the raw minute. -/
def offsetOf (minute : Byte) (cad60 : Bool) : Nat :=
  if cad60 then (minute.toNat &&& 0b11) <<< 2
  else (if minute.getLsbD 0 then 8 else 0) + (if 30 ≤ minute.toNat then 4 else 0)

/-- `BE32(K[off .. off+4))` (R602, R205). -/
def window (k : Block) (off : Nat) : Word := packWord ((blockBytes k).drop off) 0

/-- The decimal digits of `n`, most significant first; `fuel` bounds the divisions and `n` itself always suffices. -/
def decDigits (fuel n : Nat) : List Nat :=
  match fuel with
  | 0 => [n % 10]
  | fuel + 1 => if n < 10 then [n] else decDigits fuel (n / 10) ++ [n % 10]

/-- `dec(n)` as its digits (R14, R603): no leading zeros, and `dec(0)` is the one digit 0. -/
def dec (n : Nat) : List Nat := decDigits n n

/-- The selected digits `e` (R605): the rightmost `len` digits of `dec(word)`, most significant first. -/
def selectDigits (word len : Nat) : List Nat := (dec word).drop ((dec word).length - len)

/-- The sums `s[i] = e[i] + P[i]` (R606), neither reduced nor carried; PIN digits past the last `e` are ignored. -/
def pinSums (e pin : List Nat) : List Nat := List.zipWith (· + ·) e pin

/-- `CODE` as its digits (R607): the decimal renderings of the sums, one after the other. -/
def codeDigits (sums : List Nat) : List Nat := sums.flatMap dec

/-- `ascii(d)`, the byte `0x30 + d` (R14). -/
def ascii (d : Nat) : Byte := BitVec.ofNat 8 (0x30 + d)

/-- `SUMB : Bytes(8)` (R118, R706). -/
def sumBytes (sums : List Nat) : Bytes := padTo 8 (sums.map (BitVec.ofNat 8))

/-- `CHARB : Bytes(16)` (R119, R607). -/
def charBytes (code : List Nat) : Bytes := padTo 16 (code.map ascii)

end Sys2Proof.Machine
end

