-- ==== Sys2Proof/Machine/Codec.lean ====
section
/-! DEFINITION. The codec commands: BCDENC (R405), BCDDEC (R406) and TIME (R407). -/

namespace Sys2Proof.Machine

/-- The rule of BCDENC (R405). -/
def bcdencRule (s : State) : State :=
  let n := (operand s.inp).toNat
  if n > 99 then complete .bcdDom s
  else complete .noError { s with out := { s.out with result := (bcd n).setWidth 32 } }

/-- BCDENC, command code 0x3 (R405). -/
def execBcdenc (ie : Bool) (s : State) : Host.Outcome State Fault Refusal := commandStep 0x3 ie bcdencRule s

/-- The rule of BCDDEC (R406). -/
def bcddecRule (s : State) : State :=
  let b := operand s.inp
  if bcdValid b then complete .noError { s with out := { s.out with result := BitVec.ofNat 32 (unbcd b) } }
  else complete .bcdDig s

/-- BCDDEC, command code 0x4 (R406). -/
def execBcddec (ie : Bool) (s : State) : Host.Outcome State Fault Refusal := commandStep 0x4 ie bcddecRule s

/-- What a TIME that passed `TIME_OK` writes (R407): BCDTIMEB and OFFSET. -/
def timeResults (p : Params) (inp : Inputs) (out : Results) : Results :=
  { out with
    bcdTime0 := packWord (instantTime p inp) 0
    bcdTime1 := packWord (instantTime p inp) 1
    offset := BitVec.ofNat 32 (offsetOf (minute inp) (cad60 p inp)) }

/-- The rule of TIME (R407). -/
def timeRule (s : State) : State :=
  if timeOk s.inp then complete .noError { s with out := timeResults s.params s.inp s.out }
  else complete .time s

/-- TIME, command code 0x2 (R407). -/
def execTime (ie : Bool) (s : State) : Host.Outcome State Fault Refusal := commandStep 0x2 ie timeRule s

end Sys2Proof.Machine
end

