-- ==== Sys2Proof/Machine/Control.lean ====
section
/-! DEFINITION. The remaining command words: CMD 0 (R702), ZEROIZE (R708) and the reserved codes (R709). -/

namespace Sys2Proof.Machine

/-- CMD 0x0 (R702): written while `Idle` it updates CTRL.IE and nothing else; while `Busy` it is a dropped write (R703). -/
def execNoCmd (ie : Bool) (s : State) : Host.Outcome State Fault Refusal :=
  match s.seq with
  | .idle => .next { s with ie := ie }
  | .busy _ _ => .next (dropWrite s)

/-- The rule of ZEROIZE (R708): every register other than CTRL and STATUS takes its reset value. -/
def zeroizeRule (s : State) : State := complete .noError { s with inp := Inputs.reset, out := Results.reset }

/-- ZEROIZE, command code 0x6 (R708). -/
def execZeroize (ie : Bool) (s : State) : Host.Outcome State Fault Refusal := commandStep 0x6 ie zeroizeRule s

/-- The rule of a reserved code (R709): no register other than STATUS changes. -/
def reservedRule (s : State) : State := complete .badCmd s

/-- The reserved command code 0x7 (R709). -/
def execRsvd7 (ie : Bool) (s : State) : Host.Outcome State Fault Refusal := commandStep 0x7 ie reservedRule s

/-- The reserved command codes 0x8 to 0xF (R709); `low` is CMD[2:0]. -/
def execRsvdHigh (low : BitVec 3) (ie : Bool) (s : State) : Host.Outcome State Fault Refusal :=
  commandStep (1#1 ++ low) ie reservedRule s

end Sys2Proof.Machine
end

