-- ==== Sys2Proof/Machine/Cascade.lean ====
section
/-! DEFINITION. The round-key assembler (R450, R451) and the five-round cascade (R550 to R554). -/

namespace Sys2Proof.Machine

/-- Round-key material (R450) for the prefix length `n` in {2, 3, 4, 5, 8}. -/
def roundKey (bt : Bytes) (n : Nat) (serial : Bytes) : Bytes :=
  bt.take n ++ List.replicate (8 - n) 0xAA#8 ++ (serial.drop 2).take 4 ++ List.replicate 4 0xBB#8

/-- Round-key material as the four registers that hold it (R121). -/
def roundBlock (bt : Bytes) (n : Nat) (serial : Bytes) : Block := packBlock (roundKey bt n serial)

/-- What the cascade produces (R550). -/
structure CascadeOut where
  rk0 : Block
  rk1 : Block
  rk2 : Block
  rk3 : Block
  rk4 : Block
  k0 : Block
  k1 : Block
  deriving DecidableEq, Repr

/-- The five cascade rounds (R551), with the prefix schedule 2, 3, 4, 5, 8 (R451). Each round's key is the previous
round's output, or the seed for round 1; rounds 1, 3, 5 write `k0` and rounds 2, 4 write `k1` (R552). -/
def cascade (seed : Block) (bt serial : Bytes) : CascadeOut :=
  let rk0 := roundBlock bt 2 serial
  let rk1 := roundBlock bt 3 serial
  let rk2 := roundBlock bt 4 serial
  let rk3 := roundBlock bt 5 serial
  let rk4 := roundBlock bt 8 serial
  let k0 := aes128 seed rk0
  let k1 := aes128 k0 rk1
  let k0 := aes128 k1 rk2
  let k1 := aes128 k0 rk3
  let k0 := aes128 k1 rk4
  { rk0 := rk0, rk1 := rk1, rk2 := rk2, rk3 := rk3, rk4 := rk4, k0 := k0, k1 := k1 }

end Sys2Proof.Machine
end

