-- ==== Sys2Proof/Machine/Gen.lean ====
section
/-! DEFINITION. The derivation command: GEN (R706, R707). -/

namespace Sys2Proof.Machine

/-- The validation of GEN (R707): the first check that fails, in the order SERIAL, SEED, PIN, TIME. -/
def genCheck (inp : Inputs) : ErrCode :=
  if !serialOk inp then .serial
  else if !seedOk inp then .seed
  else if !pinOk inp then .pin
  else if !timeOk inp then .time
  else .noError

/-- The cascade of GEN (R706). -/
def genCascade (p : Params) (inp : Inputs) : CascadeOut := cascade inp.seed (instantTime p inp) (serialBytes inp)

/-- `off` of R706. -/
def genOffset (p : Params) (inp : Inputs) : Nat := offsetOf (minute inp) (cad60 p inp)

/-- `word` of R706. -/
def genWord (p : Params) (inp : Inputs) : Word := window (genCascade p inp).k0 (genOffset p inp)

/-- `LEN` of R706. -/
def genLen (p : Params) (inp : Inputs) : Nat := outLen p (flagsField inp)

/-- An extraction underflow (R604): the word has fewer digits than the output length. -/
def underflows (word : Word) (len : Nat) : Bool := decide ((dec word.toNat).length < len)

/-- The sums of R706: none after an underflow, which leaves CODESUM and CODECHAR all zero and CHARLEN 0. -/
def genSums (word : Word) (len : Nat) (pin : List Nat) : List Nat :=
  if underflows word len then [] else pinSums (selectDigits word.toNat len) pin

/-- What a GEN that passed validation writes (R706), from its BcdTime, cascade, offset, window, output length and sums.
RESULT and AUXOUT keep their values. -/
def genWrites (bt : Bytes) (c : CascadeOut) (off : Nat) (word : Word) (len : Nat) (sums : List Nat) (out : Results) :
    Results :=
  { out with
    bcdTime0 := packWord bt 0
    bcdTime1 := packWord bt 1
    rk0 := c.rk0
    rk1 := c.rk1
    rk2 := c.rk2
    rk3 := c.rk3
    rk4 := c.rk4
    k0 := c.k0
    k1 := c.k1
    offset := BitVec.ofNat 32 off
    word := word
    digits :=
      { ndig := BitVec.ofNat 4 (dec word.toNat).length
        len := BitVec.ofNat 4 len
        charLen := BitVec.ofNat 5 (codeDigits sums).length }
    codeSum0 := packWord (sumBytes sums) 0
    codeSum1 := packWord (sumBytes sums) 1
    codeChar := packBlock (charBytes (codeDigits sums)) }

/-- The result registers after a GEN that passed validation (R706). -/
def genResults (p : Params) (inp : Inputs) (out : Results) : Results :=
  genWrites (instantTime p inp) (genCascade p inp) (genOffset p inp) (genWord p inp) (genLen p inp)
    (genSums (genWord p inp) (genLen p inp) (pinDigits inp)) out

/-- The completion code of a GEN that passed validation (R706). -/
def genOutcome (p : Params) (inp : Inputs) : ErrCode :=
  if underflows (genWord p inp) (genLen p inp) then .underflow else .noError

/-- The rule of GEN (R706): after a validation error no result register is written. -/
def genRule (s : State) : State :=
  match genCheck s.inp with
  | .noError => complete (genOutcome s.params s.inp) { s with out := genResults s.params s.inp s.out }
  | e => complete e s

/-- GEN, command code 0x1 (R706). -/
def execGen (ie : Bool) (s : State) : Host.Outcome State Fault Refusal := commandStep 0x1 ie genRule s

end Sys2Proof.Machine
end

