-- ==== Sys2Proof/Machine/Dispatch.lean ====
section
/-! DEFINITION. The meaning of each instruction, one arm per constructor of `Instr`. -/

namespace Sys2Proof.Machine

/-- One step of the sequencer with the command word `i` (R701, R702, R704; log entry 1). -/
def exec (i : Instr) (s : State) : Host.Outcome State Fault Refusal :=
  match i with
  | .noCmd ie => Sys2Proof.Machine.execNoCmd ie s
  | .gen ie => Sys2Proof.Machine.execGen ie s
  | .time ie => Sys2Proof.Machine.execTime ie s
  | .bcdenc ie => Sys2Proof.Machine.execBcdenc ie s
  | .bcddec ie => Sys2Proof.Machine.execBcddec ie s
  | .aesenc ie => Sys2Proof.Machine.execAesenc ie s
  | .zeroize ie => Sys2Proof.Machine.execZeroize ie s
  | .rsvd7 ie => Sys2Proof.Machine.execRsvd7 ie s
  | .rsvdHigh low ie => Sys2Proof.Machine.execRsvdHigh low ie s

end Sys2Proof.Machine
end

