-- ==== Sys2Proof/Machine/Step.lean ====
section
/-! DEFINITION. One step of the machine: one move of one of the two agents (R700). -/

namespace Sys2Proof.Machine

/-- The outcome of a move: an instruction that it reaches is run by `exec`. -/
def resolve : Move → Host.Outcome State Fault Refusal
  | .run i s => exec i s
  | .answer o => o

/-- One step: the agent whose turn it is moves. -/
def step (s : State) : Host.Outcome State Fault Refusal := resolve (schedule s)

/-- `s` with the instruction whose `nbits` bits are `w`, all bits above them 0, as the command word that the host writes
to CTRL in the very next step. -/
def State.withFetchWord (s : State) (nbits w : Nat) : State := placeCommand (BitVec.ofNat 32 (w % 2 ^ nbits)) s

end Sys2Proof.Machine
end

