-- ==== Sys2Proof/Machine/Host.lean ====
section
/-! DEFINITION. The pseudo-operations a host program is written with (R311), as the host operations they stand for; `base` is the window's address. -/

namespace Sys2Proof.Machine

/-- `CMD name` with the IE the program wants: the write of the command word to CTRL. -/
def cmdOp (base : Nat) (i : Instr) : BusOp := .write base 4 (encode i)

/-- `WAIT`: polls STATUS for BUSY = 0 and DONE = 1. -/
def waitOp (base : Nat) : BusOp := .poll (base + 0x004) 0x00000003 0x00000002

/-- `CLR`: clears DONE, ERR, ERRCODE and HAZ. -/
def clrOp (base : Nat) : BusOp := .write (base + 0x004) 4 0x0000000E

/-- `LOAD16 off, b0..b15`: four writes. -/
def load16 (base off : Nat) (b : Bytes) : List BusOp :=
  [.write (base + off) 4 (packWord b 0), .write (base + off + 4) 4 (packWord b 1),
   .write (base + off + 8) 4 (packWord b 2), .write (base + off + 12) 4 (packWord b 3)]

/-- `READ16 off`: four reads. -/
def read16 (base off : Nat) : List BusOp :=
  [.read (base + off) 4 none, .read (base + off + 4) 4 none, .read (base + off + 8) 4 none,
   .read (base + off + 12) 4 none]

end Sys2Proof.Machine
end

