-- ==== Sys2Proof/WellFormed.lean ====
section
/-! DEFINITION. Which parameters and host operations are well formed. Every term of `Instr` is well formed, its fields having exactly the widths of the command word (R300), so there is no check on it. -/

namespace Sys2Proof

/-- The digit-count field lies within bits [15:0] (R653). -/
def digitFieldFits (p : Params) : Bool := decide (p.digitShift ≤ 13)

/-- The interval-selector field lies within bits [15:0] (R653). -/
def intervalFieldFits (p : Params) : Bool := decide (p.intervalShift ≤ 14)

/-- The two fields are disjoint (R653). -/
def fieldsDisjoint (p : Params) : Bool :=
  decide (p.digitShift + 3 ≤ p.intervalShift ∨ p.intervalShift + 2 ≤ p.digitShift)

/-- `BASE` is a multiple of 0x100 (R10). -/
def baseAligned (p : Params) : Bool := decide (p.base % 0x100 = 0)

/-- Every latency is at least 1 (R10). -/
def latenciesPositive (l : Latencies) : Bool :=
  decide (1 ≤ l.gen ∧ 1 ≤ l.time ∧ 1 ≤ l.bcdenc ∧ 1 ≤ l.bcddec ∧ 1 ≤ l.aesenc ∧ 1 ≤ l.zeroize ∧ 1 ≤ l.rsvd)

/-- The constraints of R10 and R653 on the parameters. -/
def Params.wf (p : Params) : Bool :=
  digitFieldFits p && intervalFieldFits p && fieldsDisjoint p && baseAligned p && latenciesPositive p.lat

/-- A bus access is 4 bytes wide, aligned to the window and inside it (R202, R212). -/
def accessWf (p : Params) (addr n : Nat) : Bool :=
  decide (n = 4) && decide (p.base ≤ addr ∧ addr < p.base + 0x100) && decide ((addr - p.base) % 4 = 0)

/-- A host operation makes only well-formed accesses (R310). -/
def opWf (p : Params) : Machine.BusOp → Bool
  | .write addr n _ => accessWf p addr n
  | .read addr n _ => accessWf p addr n
  | .poll addr _ _ => accessWf p addr 4
  | .wfi => true
  | .reset => true

end Sys2Proof
end

