-- ==== Sys2Proof/Safety.lean ====
section
/-! DEFINITION. What counts as a safe run (R811, R812, R904), and the invariant of the machine. -/

namespace Sys2Proof.Machine

/-- The next step is a host write that the engine drops because it is Busy (R703): the step answers a next state with HAZ
set whose input registers and sequencer are those before, by a write to a register other than STATUS. -/
def dropsWrite (s : State) : Bool :=
  match s.seq, s.turns, s.pending with
  | .busy _ _, .host :: _, .write addr n _ :: _ =>
    match landing s.params addr n with
    | .reg _ r => writable r && decide (r ≠ .status)
    | _ => false
  | _, _, _ => false

/-- The program is not at fault in the next step: no bus error, no access outside the window (R811), and no write lost to
HAZ (R812, R904). -/
def safeStep (s : State) : Bool :=
  !dropsWrite s &&
    match step s with
    | .next _ => true
    | .fault _ => false
    | .refused _ => false

/-- The program is not at fault in the next `k` steps. -/
def safeRun (k : Nat) (s : State) : Bool :=
  match k with
  | 0 => true
  | k + 1 =>
    safeStep s &&
      match step s with
      | .next t => safeRun k t
      | .fault _ => false
      | .refused _ => false

/-- A register that a command writes (R303), whose value is the command's only after its completion (R905). -/
def resultReg (r : Reg) : Bool := !writable r && decide (r ≠ .loaded)

/-- An access lands on a register that a command writes. -/
def landsOnResult (p : Params) (addr n : Nat) : Bool :=
  match landing p addr n with
  | .reg _ r => resultReg r
  | _ => false

/-- The next step is a host read of a result register while a command is in flight, so of an earlier command's result
(R905). The engine answers it like any read; it is no fault, and `safeStep` does not count it. -/
def earlyRead (s : State) : Bool :=
  match s.seq, s.turns, s.pending with
  | .busy _ _, .host :: _, .read addr n _ :: _ => landsOnResult s.params addr n
  | .busy _ _, .host :: _, .poll addr _ _ :: _ => landsOnResult s.params addr 4
  | _, _, _ => false

/-- Every value the host named in `RD off == v` is the value it read (R310). -/
def expectationsMet (s : State) : Bool :=
  s.reads.all (fun r =>
    match r.expect with
    | none => true
    | some v => decide (r.value = v))

/-- The host program has ended (R710). -/
def programEnded (s : State) : Bool := s.pending.isEmpty && !isBusy s

/-- The reserved bits of a stored word are 0 (R102 to R121). -/
def reservedZero (r : Reg) (s : State) : Bool := decide (held r s &&& ~~~(fieldMask r) = 0)

/-- The sequencer is well formed (R131) and STATUS agrees with it (R134, R701): the command in flight is not 0, has 1 to
`LAT_cmd` cycles left and is the last accepted one, and DONE, ERR and ERRCODE were cleared at its acceptance. -/
def seqOk (s : State) : Bool :=
  match s.seq with
  | .idle => true
  | .busy c n =>
    decide (c ≠ 0) && decide (1 ≤ n ∧ n ≤ latency s.params.lat c) && decide (s.status.lastCmd = c)
      && !s.status.done && !s.status.err

/-- ERR is 1 exactly when ERRCODE is not NONE (R103, R704), and no command raises ERR_CIPHER (R810). -/
def errOk (t : Status) : Bool := decide (t.err = decide (t.errCode ≠ .noError)) && decide (t.errCode ≠ .cipher)

/-- A SEED, SERIAL or TIME word that is not loaded still holds its reset value 0 (R104, R111, R900). -/
def unloadedZero (inp : Inputs) : Bool :=
  (inp.loaded.getLsbD 0 || decide (inp.seed.w0 = 0)) && (inp.loaded.getLsbD 1 || decide (inp.seed.w1 = 0))
    && (inp.loaded.getLsbD 2 || decide (inp.seed.w2 = 0)) && (inp.loaded.getLsbD 3 || decide (inp.seed.w3 = 0))
    && (inp.loaded.getLsbD 4 || decide (inp.serial0 = 0)) && (inp.loaded.getLsbD 5 || decide (inp.serial1 = 0))
    && (inp.loaded.getLsbD 6 || decide (inp.time0 = 0)) && (inp.loaded.getLsbD 7 || decide (inp.time1 = 0))

/-- The offset is one of 0, 4, 8 and 12 (R115), and CHARLEN is at most 16 (R117). -/
def resultsOk (o : Results) : Bool :=
  decide (o.offset = 0 ∨ o.offset = 4 ∨ o.offset = 8 ∨ o.offset = 12) && decide (o.digits.charLen.toNat ≤ 16)

/-- The registers that have reserved bits among those held as whole words. -/
def maskedRegs : List Reg := [.loaded, .flags, .serial1, .time0, .opnd, .result, .offset]

/-- The invariant of the machine. -/
def inv (s : State) : Bool :=
  s.params.wf && maskedRegs.all (fun r => reservedZero r s) && seqOk s && errOk s.status && unloadedZero s.inp
    && resultsOk s.out

end Sys2Proof.Machine

namespace Sys2Proof.Machine

/-! The terms the statements use. Each says a rule in its own arithmetic, without the operations of the model. -/

/-- The host operation that the next step performs, with the state left when it, and the choice of the host where one was
needed, are taken off their lists (R700, R815). -/
def hostNext (s : State) : Option (BusOp × State) :=
  match s.pending with
  | [] => none
  | op :: rest =>
    if hostReady s then
      match s.seq, s.turns with
      | .idle, _ => some (op, { s with pending := rest })
      | .busy _ _, .host :: ts => some (op, { s with pending := rest, turns := ts })
      | .busy _ _, _ => none
    else none

/-- The state from which the engine's next cycle is taken, if the next step is the engine's (R700, R815). -/
def engineNext (s : State) : Option State :=
  match s.seq with
  | .idle => none
  | .busy _ _ =>
    if hostReady s then
      match s.turns with
      | [] => some s
      | .engine :: ts => some { s with turns := ts }
      | .host :: _ => none
    else some s

/-- One row of the register map of R101: the offset, the register, the word it holds, and the bits that are not reserved
(R102 to R121). -/
structure RegRow where
  off : Nat
  reg : Reg
  value : Word
  mask : Word
  deriving DecidableEq, Repr

/-- The four rows of a register group that holds a block, all bits used: word `w` sits at `base + 4*w` (R101). -/
def blockRows (base : Nat) (reg : Fin 4 → Reg) (b : Block) : List RegRow :=
  [⟨base, reg 0, b.w0, 0xFFFFFFFF⟩, ⟨base + 4, reg 1, b.w1, 0xFFFFFFFF⟩,
   ⟨base + 8, reg 2, b.w2, 0xFFFFFFFF⟩, ⟨base + 12, reg 3, b.w3, 0xFFFFFFFF⟩]

/-- STATUS as the arithmetic of its fields (R103): BUSY bit 0, DONE bit 1, ERR bit 2, HAZ bit 3, ERRCODE from bit 4,
LASTCMD from bit 8. -/
def statusSum (s : State) : Word :=
  BitVec.ofNat 32 ((if s.seq = .idle then 0 else 1) + (if s.status.done then 2 else 0) + (if s.status.err then 4 else 0)
    + (if s.status.haz then 8 else 0) + 16 * (errBits s.status.errCode).toNat + 256 * s.status.lastCmd.toNat)

/-- DIGITS as the arithmetic of its fields (R117): NDIG from bit 0, LEN from bit 4, CHARLEN from bit 8. -/
def digitsSum (d : Digits) : Word := BitVec.ofNat 32 (d.ndig.toNat + 16 * d.len.toNat + 256 * d.charLen.toNat)

/-- The rows of R101 with the reserved bits of R102 to R121, written out from the spec's table and not from `regMap` or
`fieldMask`. The offsets 0x02C and 0x07C have no row. -/
def registerRows (s : State) : List RegRow :=
  [⟨0x000, .ctrl, if s.ie then 0x00000100 else 0, 0x00000100⟩, ⟨0x004, .status, statusSum s, 0x00000FFF⟩,
   ⟨0x008, .loaded, s.inp.loaded, 0x000000FF⟩, ⟨0x00C, .flags, s.inp.flags, 0x0000FFFF⟩,
   ⟨0x010, .pin, s.inp.pin, 0xFFFFFFFF⟩, ⟨0x014, .serial0, s.inp.serial0, 0xFFFFFFFF⟩,
   ⟨0x018, .serial1, s.inp.serial1, 0xFFFF0000⟩, ⟨0x01C, .time0, s.inp.time0, 0x0000FFFF⟩,
   ⟨0x020, .time1, s.inp.time1, 0xFFFFFFFF⟩, ⟨0x024, .opnd, s.inp.opnd, 0x000000FF⟩,
   ⟨0x028, .result, s.out.result, 0x000000FF⟩]
  ++ blockRows 0x030 .seed s.inp.seed ++ blockRows 0x040 .auxBlk s.inp.auxBlk ++ blockRows 0x050 .auxOut s.out.auxOut
  ++ [⟨0x060, .bcdTime0, s.out.bcdTime0, 0xFFFFFFFF⟩, ⟨0x064, .bcdTime1, s.out.bcdTime1, 0xFFFFFFFF⟩,
      ⟨0x068, .offset, s.out.offset, 0x0000000F⟩, ⟨0x06C, .word, s.out.word, 0xFFFFFFFF⟩,
      ⟨0x070, .digits, digitsSum s.out.digits, 0x00001FFF⟩, ⟨0x074, .codeSum0, s.out.codeSum0, 0xFFFFFFFF⟩,
      ⟨0x078, .codeSum1, s.out.codeSum1, 0xFFFFFFFF⟩]
  ++ blockRows 0x080 .codeChar s.out.codeChar ++ blockRows 0x090 .k0 s.out.k0 ++ blockRows 0x0A0 .k1 s.out.k1
  ++ blockRows 0x0B0 (.rk 0) s.out.rk0 ++ blockRows 0x0C0 (.rk 1) s.out.rk1 ++ blockRows 0x0D0 (.rk 2) s.out.rk2
  ++ blockRows 0x0E0 (.rk 3) s.out.rk3 ++ blockRows 0x0F0 (.rk 4) s.out.rk4

/-- What a read of the row's register returns: SEED, at 0x030 to 0x03C, reads 0 (R111), any other its value with the reserved
bits 0 (R208). -/
def rowRead (row : RegRow) : Word := if 0x030 ≤ row.off ∧ row.off ≤ 0x03C then 0 else row.value &&& row.mask

/-- The 44 words of the key expansion, in order (R507). -/
def keyWords (key : Block) : List Word := (key :: roundKeys key).flatMap (fun k => [k.w0, k.w1, k.w2, k.w3])

/-- The words `W[4k .. 4k+4)` of an expanded key, as AddRoundKey(`k`) uses them (R506). -/
def keyGroup (w : List Word) (k : Nat) : Block :=
  { w0 := w.getD (4 * k) 0, w1 := w.getD (4 * k + 1) 0, w2 := w.getD (4 * k + 2) 0, w3 := w.getD (4 * k + 3) 0 }

/-- Serial digit `j`, counted from the left of the 12-digit serial (R107): nibble `j` of SERIALB. -/
def serialDigit (inp : Inputs) (j : Nat) : Nat :=
  (inp.serial0.toNat * 2 ^ 16 + inp.serial1.toNat / 2 ^ 16) / 16 ^ (11 - j) % 16

/-- PIN digit `i` (R106): nibble `i` of PIN from the left. -/
def pinNibble (inp : Inputs) (i : Nat) : Nat := inp.pin.toNat / 16 ^ (7 - i) % 16

/-- `SERIAL_OK` of R707. -/
abbrev validSerial (inp : Inputs) : Prop :=
  inp.loaded.getLsbD 4 = true ∧ inp.loaded.getLsbD 5 = true ∧ ∀ j < 12, serialDigit inp j ≤ 9

/-- `SEED_OK` of R707. -/
abbrev validSeed (inp : Inputs) : Prop := ∀ i < 4, inp.loaded.getLsbD i = true

/-- `PIN_OK` of R707. -/
abbrev validPin (inp : Inputs) : Prop := ∀ i < 8, pinNibble inp i ≤ 9

/-- The fields of TIME0 and TIME1 (R108): YEAR, MONTH, DAY, HOUR, MINUTE. -/
def yearOf (inp : Inputs) : Nat := inp.time0.toNat % 2 ^ 16
def monthOf (inp : Inputs) : Nat := inp.time1.toNat / 2 ^ 24
def dayOf (inp : Inputs) : Nat := inp.time1.toNat / 2 ^ 16 % 2 ^ 8
def hourOf (inp : Inputs) : Nat := inp.time1.toNat / 2 ^ 8 % 2 ^ 8
def minuteOf (inp : Inputs) : Nat := inp.time1.toNat % 2 ^ 8

/-- `TIME_OK` of R408. -/
abbrev validTime (inp : Inputs) : Prop :=
  inp.loaded.getLsbD 6 = true ∧ inp.loaded.getLsbD 7 = true ∧ yearOf inp ≤ 9999 ∧ 1 ≤ monthOf inp ∧ monthOf inp ≤ 12
    ∧ 1 ≤ dayOf inp ∧ dayOf inp ≤ 31 ∧ hourOf inp ≤ 23 ∧ minuteOf inp ≤ 59

/-- Every check of R707 passes. -/
abbrev validGen (inp : Inputs) : Prop := validSerial inp ∧ validSeed inp ∧ validPin inp ∧ validTime inp

/-- The interval selector is not 0: 60-second cadence (R652). -/
abbrev sixtySeconds (p : Params) (inp : Inputs) : Prop := inp.flags.toNat % 2 ^ 16 / 2 ^ p.intervalShift % 4 ≠ 0

/-- The output length `LEN` (R651): the digit-count field plus 1. -/
def lenOf (p : Params) (inp : Inputs) : Nat := inp.flags.toNat % 2 ^ 16 / 2 ^ p.digitShift % 8 + 1

/-- The cadence-masked minute (R402), as arithmetic. -/
def maskedMinute (p : Params) (inp : Inputs) : Nat :=
  if sixtySeconds p inp then minuteOf inp / 4 * 4 else minuteOf inp / 2 * 2

/-- The packed-BCD byte of R304, as arithmetic. -/
def packed (n : Nat) : Byte := BitVec.ofNat 8 (16 * (n / 10) + n % 10)

/-- `BCDTIMEB` of the instant in TIME0 and TIME1 (R306, R403). -/
def timeBytes (p : Params) (inp : Inputs) : Bytes :=
  [packed (yearOf inp % 100), packed (yearOf inp / 100 % 100), packed (monthOf inp), packed (dayOf inp),
   packed (hourOf inp), packed (maskedMinute p inp), 0, 0]

/-- The window's offset (R600, R601), as arithmetic. -/
def offsetArith (p : Params) (inp : Inputs) : Nat :=
  if sixtySeconds p inp then 4 * (minuteOf inp % 4)
  else 8 * (minuteOf inp % 2) + (if 30 ≤ minuteOf inp then 4 else 0)

/-- The sum `s[i]` of R605 and R606 for the extracted integer `word` and the output length `len`. -/
def sumAt (inp : Inputs) (word len i : Nat) : Nat := word / 10 ^ (len - 1 - i) % 10 + pinNibble inp i

/-- The decimal rendering of a sum of at most 19 (R607). -/
def sumDigits (n : Nat) : List Nat := if n < 10 then [n] else [1, n - 10]

/-- STATUS after a completion with `code` (R704). -/
def completed (code : ErrCode) (t : Status) : Status :=
  { t with done := true, err := decide (code ≠ .noError), errCode := code }

/-- The state after a completion with `code` that leaves the result registers `out` (R704). -/
def completedWith (code : ErrCode) (out : Results) (s : State) : State :=
  { s with out := out, status := completed code s.status, seq := .idle }

/-- The outcome is a next state with the property `P`. -/
def nextWith (o : Host.Outcome State Fault Refusal) (P : State → Prop) : Prop :=
  match o with
  | .next t => P t
  | .fault _ => False
  | .refused _ => False

end Sys2Proof.Machine
end

