-- ==== Sys2Proof/Certificates/Slice0/Obligations.lean ====
section
/-! DEFINITION. The statements about the engine, from the numbered rules of spec/. -/

open Sys2Proof Sys2Proof.Machine

/-! ### Encoding -/

/-- R300, R301: decoding the encoding of an instruction gives it back, every field at every value, and encoding what a
command word decodes to gives the word with its reserved bits 0. -/
def Obligations.EncodeDecodeRoundTrip : Prop :=
  (∀ i : Instr, decode (encode i) = i ∧ decodeTableWord 32 (encode i).toNat = some i)
    ∧ ∀ w : Word, encode (decode w) = w &&& 0x0000010F#32

/-- R300, R302: two command words decode to one instruction exactly when they agree in CMD and IE. -/
def Obligations.DecodeReadsCmdAndIeOnly : Prop :=
  ∀ v w : Word, decode v = decode w ↔ (v.toNat % 16 = w.toNat % 16 ∧ v.getLsbD 8 = w.getLsbD 8)

/-- R301: a few command words of 95_test_vectors.md, S15 with reserved bits set among them. -/
def Obligations.CommandWordsDecode : Prop :=
  decode 0x00000001#32 = .gen false ∧ decode 0x00000105#32 = .aesenc true ∧ decode 0x000001F5#32 = .aesenc true
    ∧ decode 0x00000100#32 = .noCmd true ∧ decode 0x00000009#32 = .rsvdHigh 1#3 false
    ∧ decode 0x0000000F#32 = .rsvdHigh 7#3 false ∧ decode 0x00000006#32 = .zeroize false

/-! ### Acceptance -/

/-- R701: every command word with a nonzero CMD, run while `Idle`, is accepted, with the updates of R701 and no other. -/
def Obligations.CommandAccepted : Prop :=
  ∀ (i : Instr) (s : State), s.seq = .idle → i.code ≠ 0 →
    exec i s = .next { s with
      ie := i.ie
      status := { done := false, err := false, haz := s.status.haz, errCode := .noError, lastCmd := i.code }
      seq := .busy i.code (if i.code = 1 then s.params.lat.gen else if i.code = 2 then s.params.lat.time
        else if i.code = 3 then s.params.lat.bcdenc else if i.code = 4 then s.params.lat.bcddec
        else if i.code = 5 then s.params.lat.aesenc else if i.code = 6 then s.params.lat.zeroize
        else s.params.lat.rsvd) }

/-- R702: a write to CTRL with CMD 0 while `Idle` sets CTRL.IE and does nothing else. -/
def Obligations.CmdZeroOnlySetsIe : Prop :=
  (∀ v : Word, v.toNat % 16 = 0 → decode v = .noCmd (v.getLsbD 8))
    ∧ (∀ (ie : Bool) (s : State), s.seq = .idle → exec (.noCmd ie) s = .next { s with ie := ie })
    ∧ ∀ (s u : State) (v : Word), s.seq = .idle → v.toNat % 16 = 0 →
        hostNext s = some (.write s.params.base 4 v, u) → step s = .next { u with ie := v.getLsbD 8 }

/-- The model's choice (log entry 1), after R703: a command word handed to the sequencer while a command of another code is in
flight, CMD 0 included, is answered as a dropped write that sets HAZ. The word of the command in flight is left out: there
`exec` is its completion. R703 itself speaks of the write on the bus, for every word, and BusyWriteDropped states it. -/
def Obligations.CommandWhileBusyDropped : Prop :=
  ∀ (i : Instr) (s : State) (c : BitVec 4) (n : Nat), s.seq = .busy c n → i.code ≠ c →
    exec i s = .next { s with status := { s.status with haz := true } }

/-! ### The codec commands -/

/-- R405: BCDENC in flight completes: an operand above 99 gives ERR_BCDDOM and leaves RESULT, any other its BCD byte. -/
def Obligations.BcdencResult : Prop :=
  (∀ v : Word, v.toNat % 16 = 3 → decode v = .bcdenc (v.getLsbD 8))
    ∧ ∀ (ie : Bool) (s : State) (n : Nat), s.seq = .busy 3 n →
      exec (.bcdenc ie) s = .next
        (if s.inp.opnd.toNat % 256 > 99 then completedWith .bcdDom s.out s
         else completedWith .noError
          { s.out with
            result := BitVec.ofNat 32 (16 * (s.inp.opnd.toNat % 256 / 10) + s.inp.opnd.toNat % 256 % 10) } s)

/-- R406: BCDDEC in flight completes: a nibble above 9 gives ERR_BCDDIG and leaves RESULT, any other byte its number. -/
def Obligations.BcddecResult : Prop :=
  (∀ v : Word, v.toNat % 16 = 4 → decode v = .bcddec (v.getLsbD 8))
    ∧ ∀ (ie : Bool) (s : State) (n : Nat), s.seq = .busy 4 n →
      exec (.bcddec ie) s = .next
        (if s.inp.opnd.toNat / 16 % 16 ≤ 9 ∧ s.inp.opnd.toNat % 16 ≤ 9 then
          completedWith .noError
            { s.out with result := BitVec.ofNat 32 (10 * (s.inp.opnd.toNat / 16 % 16) + s.inp.opnd.toNat % 16) } s
         else completedWith .bcdDig s.out s)

/-- R401: BCDENC of an operand up to 99, then BCDDEC of its RESULT, gives the operand back with no error. -/
def Obligations.BcdRoundTripThroughRegisters : Prop :=
  ∀ (s u : State) (m n : Nat) (ie je : Bool), s.seq = .busy 3 m → u.seq = .busy 4 n → s.inp.opnd.toNat ≤ 99 →
    ∃ t, exec (.bcdenc ie) s = .next t ∧
      (u.inp.opnd = t.out.result → ∃ w, exec (.bcddec je) u = .next w ∧ w.out.result = s.inp.opnd
        ∧ w.status.err = false)

/-- R407: TIME in flight completes: an invalid instant gives ERR_TIME and changes no result; a valid one writes BCDTIME and
OFFSET and nothing else. -/
def Obligations.TimeResult : Prop :=
  (∀ v : Word, v.toNat % 16 = 2 → decode v = .time (v.getLsbD 8))
    ∧ ∀ (ie : Bool) (s : State) (n : Nat), s.seq = .busy 2 n →
      exec (.time ie) s = .next
        (if validTime s.inp then
          completedWith .noError
            { s.out with
              bcdTime0 := packed (yearOf s.inp % 100) ++ packed (yearOf s.inp / 100 % 100) ++ packed (monthOf s.inp)
                ++ packed (dayOf s.inp)
              bcdTime1 := packed (hourOf s.inp) ++ packed (maskedMinute s.params s.inp) ++ 0#16
              offset := BitVec.ofNat 32 (offsetArith s.params s.inp) } s
         else completedWith .time s.out s)

/-! ### The cipher command and AES -/

/-- R511: AESENC in flight completes: with every SEED word loaded AUXOUT is the encryption of AUXBLK under SEED, else it
ends with ERR_SEED and AUXOUT is unchanged. R509 (which the spec gives from general knowledge, log entry 11): the
encryption of any block under any key is AddRoundKey(0), nine rounds of SubBytes, ShiftRows, MixColumns and AddRoundKey(k)
for k from 1 to 9, and a tenth without MixColumns, the round keys being the words of KeyExpansionWords. -/
def Obligations.AesencResult : Prop :=
  (∀ v : Word, v.toNat % 16 = 5 → decode v = .aesenc (v.getLsbD 8))
    ∧ (∀ (ie : Bool) (s : State) (n : Nat), s.seq = .busy 5 n →
      exec (.aesenc ie) s = .next
        (if s.inp.loaded.toNat % 16 = 15 then
          completedWith .noError { s.out with auxOut := aes128 s.inp.seed s.inp.auxBlk } s
         else completedWith .seed s.out s))
    ∧ ∀ key block : Block,
      aes128 key block =
        addRoundKey (keyGroup (keyWords key) 10) (shiftRows (subBytes
          ([1, 2, 3, 4, 5, 6, 7, 8, 9].foldl
            (fun s k => addRoundKey (keyGroup (keyWords key) k) (mixColumns (shiftRows (subBytes s))))
            (addRoundKey (keyGroup (keyWords key) 0) block))))

/-- R507: the 44 words of the key expansion. -/
def Obligations.KeyExpansionWords : Prop :=
  ∀ (key : Block) (w : List Word),
    w = keyWords key →
      w.length = 44 ∧ w.take 4 = [key.w0, key.w1, key.w2, key.w3]
        ∧ ∀ i, 4 ≤ i → i < 44 → w.getD i 0 = w.getD (i - 4) 0 ^^^
          (if i % 4 = 0 then
            be32 (sbox (byteAt (w.getD (i - 1) 0) 1)
                ^^^ [0x01#8, 0x02, 0x04, 0x08, 0x10, 0x20, 0x40, 0x80, 0x1B, 0x36].getD (i / 4 - 1) 0)
              (sbox (byteAt (w.getD (i - 1) 0) 2)) (sbox (byteAt (w.getD (i - 1) 0) 3))
              (sbox (byteAt (w.getD (i - 1) 0) 0))
           else w.getD (i - 1) 0)

/-- R503 to R506: the four transformations, byte by byte, `S[r][c]` being byte `r` of column `c` (R501). -/
def Obligations.AesTransformationsByByte : Prop :=
  ∀ (s k : Block) (r c : Fin 4),
    byteAt (getWord (subBytes s) c) r = sbox (byteAt (getWord s c) r)
    ∧ byteAt (getWord (shiftRows s) c) r = byteAt (getWord s (c + r)) r
    ∧ byteAt (getWord (addRoundKey k s) c) r = byteAt (getWord s c) r ^^^ byteAt (getWord k c) r
    ∧ byteAt (getWord (mixColumns s) c) r =
      gmul (byteAt (getWord s c) r) 2 ^^^ gmul (byteAt (getWord s c) (r + 1 : Fin 4)) 3
        ^^^ byteAt (getWord s c) (r + 2 : Fin 4) ^^^ byteAt (getWord s c) (r + 3 : Fin 4)

/-- R502: the S-box table is the affine map of the inverse in GF(2^8), the inverse of 0 being 0. -/
def Obligations.SboxIsAffineOfInverse : Prop :=
  ∀ x : Byte, ∃ y : Byte, (x = 0 → y = 0) ∧ (x ≠ 0 → gmul x y = 1)
    ∧ sbox x = y ^^^ y.rotateLeft 1 ^^^ y.rotateLeft 2 ^^^ y.rotateLeft 3 ^^^ y.rotateLeft 4 ^^^ 0x63

/-! ### Flags -/

/-- R651, R652: the digit-count and interval-selector fields are bit fields of the 16-bit flags word at the parameter shifts,
the output length is the digit count plus 1, and any nonzero interval selector means 60-second cadence. -/
def Obligations.FlagsFields : Prop :=
  ∀ (p : Params) (f : BitVec 16),
    digitCount p f = f.toNat / 2 ^ p.digitShift % 8 ∧ outLen p f = f.toNat / 2 ^ p.digitShift % 8 + 1
      ∧ intervalSel p f = f.toNat / 2 ^ p.intervalShift % 4
      ∧ (interval60 p f = true ↔ f.toNat / 2 ^ p.intervalShift % 4 ≠ 0)

/-! ### GEN -/

/-- R707: GEN in flight with an invalid input completes with the first failing check, in the order SERIAL, SEED, PIN, TIME,
and writes no result register. -/
def Obligations.GenValidationOrder : Prop :=
  (∀ v : Word, v.toNat % 16 = 1 → decode v = .gen (v.getLsbD 8))
    ∧ ∀ (ie : Bool) (s : State) (n : Nat), s.seq = .busy 1 n →
      (¬ validSerial s.inp → exec (.gen ie) s = .next (completedWith .serial s.out s))
      ∧ (validSerial s.inp → ¬ validSeed s.inp → exec (.gen ie) s = .next (completedWith .seed s.out s))
      ∧ (validSerial s.inp → validSeed s.inp → ¬ validPin s.inp →
          exec (.gen ie) s = .next (completedWith .pin s.out s))
      ∧ (validSerial s.inp → validSeed s.inp → validPin s.inp → ¬ validTime s.inp →
          exec (.gen ie) s = .next (completedWith .time s.out s))

/-- R706: GEN in flight with valid inputs and no underflow completes with the code: every result register it writes, and
no other change. -/
def Obligations.GenCode : Prop :=
  ∀ (ie : Bool) (s : State) (n : Nat), s.seq = .busy 1 n → validGen s.inp →
    ∀ (bt : Bytes) (c : CascadeOut) (word len : Nat) (sums code : List Nat),
      bt = timeBytes s.params s.inp →
      c = cascade s.inp.seed bt (wordBytes s.inp.serial0 ++ (wordBytes s.inp.serial1).take 2) →
      word = (getWord c.k0 (Fin.ofNat 4 (offsetArith s.params s.inp / 4))).toNat →
      len = lenOf s.params s.inp →
      (len = 1 ∨ 10 ^ (len - 1) ≤ word) →
      sums = (List.range len).map (sumAt s.inp word len) →
      code = sums.flatMap sumDigits →
      exec (.gen ie) s = .next (completedWith .noError
        { s.out with
          bcdTime0 := packWord bt 0
          bcdTime1 := packWord bt 1
          rk0 := c.rk0
          rk1 := c.rk1
          rk2 := c.rk2
          rk3 := c.rk3
          rk4 := c.rk4
          k0 := c.k0
          k1 := c.k1
          offset := BitVec.ofNat 32 (offsetArith s.params s.inp)
          word := BitVec.ofNat 32 word
          digits :=
            { ndig := BitVec.ofNat 4 (dec word).length
              len := BitVec.ofNat 4 len
              charLen := BitVec.ofNat 5 code.length }
          codeSum0 := packWord (sums.map (BitVec.ofNat 8)) 0
          codeSum1 := packWord (sums.map (BitVec.ofNat 8)) 1
          codeChar := packBlock (code.map (fun d => BitVec.ofNat 8 (0x30 + d))) } s)

/-- R706, R604: GEN in flight with valid inputs and an extracted integer of fewer than LEN digits completes with
ERR_UNDERFLOW: the intermediates are written, CODESUM and CODECHAR are cleared and CHARLEN is 0. -/
def Obligations.GenUnderflow : Prop :=
  ∀ (ie : Bool) (s : State) (n : Nat), s.seq = .busy 1 n → validGen s.inp →
    ∀ (bt : Bytes) (c : CascadeOut) (word len : Nat),
      bt = timeBytes s.params s.inp →
      c = cascade s.inp.seed bt (wordBytes s.inp.serial0 ++ (wordBytes s.inp.serial1).take 2) →
      word = (getWord c.k0 (Fin.ofNat 4 (offsetArith s.params s.inp / 4))).toNat →
      len = lenOf s.params s.inp →
      2 ≤ len → word < 10 ^ (len - 1) →
      exec (.gen ie) s = .next (completedWith .underflow
        { s.out with
          bcdTime0 := packWord bt 0
          bcdTime1 := packWord bt 1
          rk0 := c.rk0
          rk1 := c.rk1
          rk2 := c.rk2
          rk3 := c.rk3
          rk4 := c.rk4
          k0 := c.k0
          k1 := c.k1
          offset := BitVec.ofNat 32 (offsetArith s.params s.inp)
          word := BitVec.ofNat 32 word
          digits := { ndig := BitVec.ofNat 4 (dec word).length, len := BitVec.ofNat 4 len, charLen := 0 }
          codeSum0 := 0
          codeSum1 := 0
          codeChar := { w0 := 0, w1 := 0, w2 := 0, w3 := 0 } } s)

/-- R551, R552: after a GEN that passed validation, the registers RK0 to RK4, K1 and K0 are one cascade keyed first by the
seed. -/
def Obligations.CascadeChainInRegisters : Prop :=
  ∀ (ie : Bool) (s : State) (n : Nat), s.seq = .busy 1 n → validGen s.inp →
    ∃ t, exec (.gen ie) s = .next t
      ∧ t.out.k1 = aes128 (aes128 (aes128 (aes128 s.inp.seed t.out.rk0) t.out.rk1) t.out.rk2) t.out.rk3
      ∧ t.out.k0 = aes128 t.out.k1 t.out.rk4

/-- R307, R451: after a GEN that passed validation, each byte of each round-key block. `PFX` is the prefix schedule. -/
def Obligations.RoundKeyLayout : Prop :=
  ∀ (ie : Bool) (s : State) (n : Nat), s.seq = .busy 1 n → validGen s.inp →
    ∃ t, exec (.gen ie) s = .next t ∧ ∀ (r : Fin 5) (j : Fin 16),
      byteAt (getWord (rkBlock t.out r) (Fin.ofNat 4 (j / 4))) j =
        if j < [2, 3, 4, 5, 8].getD r 0 then (timeBytes s.params s.inp).getD j 0
        else if j < 8 then 0xAA
        else if j < 10 then byteAt s.inp.serial0 (j - 6)
        else if j < 12 then byteAt s.inp.serial1 (j - 10)
        else 0xBB

/-- R205, R602: after a GEN that passed validation, WORD is the K0 register at the index `OFFSET div 4`. -/
def Obligations.WordIsK0AtOffset : Prop :=
  ∀ (ie : Bool) (s : State) (n : Nat), s.seq = .busy 1 n → validGen s.inp →
    ∃ t, exec (.gen ie) s = .next t ∧ t.out.word = getWord t.out.k0 (Fin.ofNat 4 (t.out.offset.toNat / 4))
      ∧ (t.out.offset = 0 ∨ t.out.offset = 4 ∨ t.out.offset = 8 ∨ t.out.offset = 12)

/-- R604: after a GEN that passed validation, the registers say whether it underflowed: exactly when NDIG is below LEN, that
is when WORD is below 10 to the power LEN - 1; a LEN of 1 never underflows. -/
def Obligations.UnderflowExactly : Prop :=
  ∀ (ie : Bool) (s : State) (n : Nat), s.seq = .busy 1 n → validGen s.inp →
    ∃ t, exec (.gen ie) s = .next t
      ∧ t.out.digits.len.toNat = lenOf s.params s.inp
      ∧ (t.status.errCode = .underflow ∨ t.status.errCode = .noError)
      ∧ (t.status.errCode = .underflow ↔ t.out.digits.ndig.toNat < t.out.digits.len.toNat)
      ∧ (t.status.errCode = .underflow ↔
          2 ≤ t.out.digits.len.toNat ∧ t.out.word.toNat < 10 ^ (t.out.digits.len.toNat - 1))

/-- R607: after a GEN without error, CHARLEN is LEN plus the number of sums of 10 or more, so from LEN to 16. -/
def Obligations.CharLenCountsLargeSums : Prop :=
  ∀ (ie : Bool) (s : State) (n : Nat), s.seq = .busy 1 n → validGen s.inp →
    ∃ t, exec (.gen ie) s = .next t ∧ (t.status.err = false →
      t.out.digits.charLen.toNat = lenOf s.params s.inp + ((List.range (lenOf s.params s.inp)).filter
        (fun i => 10 ≤ sumAt s.inp t.out.word.toNat (lenOf s.params s.inp) i)).length
      ∧ t.out.digits.charLen.toNat ≤ 16)

/-- R608: with PIN 0 and no error, CHARLEN is LEN and character `k` is the digit `k` of the rightmost LEN digits of WORD. -/
def Obligations.NeutralPin : Prop :=
  ∀ (ie : Bool) (s : State) (n : Nat), s.seq = .busy 1 n → validGen s.inp → s.inp.pin = 0 →
    ∃ t, exec (.gen ie) s = .next t ∧ (t.status.err = false →
      t.out.digits.charLen.toNat = lenOf s.params s.inp ∧ ∀ k < lenOf s.params s.inp,
        (byteAt (getWord t.out.codeChar (Fin.ofNat 4 (k / 4))) k).toNat
          = 0x30 + t.out.word.toNat / 10 ^ (lenOf s.params s.inp - 1 - k) % 10)

/-- R555, R711: the outcome of GEN depends on the parameters and on LOADED, FLAGS, PIN, SERIAL, TIME and SEED alone, not on
OPND, AUXBLK or anything else; RESULT and AUXOUT are kept. -/
def Obligations.GenDependsOnInputsOnly : Prop :=
  ∀ (ie je : Bool) (s u : State) (m n : Nat), s.seq = .busy 1 m → u.seq = .busy 1 n → s.params = u.params →
    s.inp.loaded = u.inp.loaded → s.inp.flags = u.inp.flags → s.inp.pin = u.inp.pin → s.inp.serial0 = u.inp.serial0 →
    s.inp.serial1 = u.inp.serial1 → s.inp.time0 = u.inp.time0 → s.inp.time1 = u.inp.time1 → s.inp.seed = u.inp.seed →
    ∃ t w, exec (.gen ie) s = .next t ∧ exec (.gen je) u = .next w
      ∧ t.status.errCode = w.status.errCode
      ∧ (validGen s.inp → { t.out with result := w.out.result, auxOut := w.out.auxOut } = w.out)
      ∧ t.out.result = s.out.result ∧ t.out.auxOut = s.out.auxOut ∧ t.inp = s.inp

/-- R452: two serials that are valid and differ only in their first four digits give the same result registers. -/
def Obligations.FirstFourSerialDigitsIgnored : Prop :=
  ∀ (ie : Bool) (s : State) (x : Word) (n : Nat), s.seq = .busy 1 n → validGen s.inp →
    validGen { s.inp with serial0 := x } → x.toNat % 2 ^ 16 = s.inp.serial0.toNat % 2 ^ 16 →
    ∃ t w, exec (.gen ie) s = .next t ∧ exec (.gen ie) { s with inp := { s.inp with serial0 := x } } = .next w
      ∧ t.out = w.out ∧ t.status = w.status

/-- R409, R712: minutes of one bucket (four minutes in 60-second cadence, two in 30-second) share BCDTIME, the round-key
blocks and both cascade buffers. -/
def Obligations.MinuteBucketsShareCascade : Prop :=
  ∀ (ie : Bool) (s : State) (x : Word) (n : Nat), s.seq = .busy 1 n → validGen s.inp →
    validGen { s.inp with time1 := x } → x.toNat / 2 ^ 8 = s.inp.time1.toNat / 2 ^ 8 →
    (if sixtySeconds s.params s.inp then minuteOf { s.inp with time1 := x } / 4 = minuteOf s.inp / 4
     else minuteOf { s.inp with time1 := x } / 2 = minuteOf s.inp / 2) →
    ∃ t w, exec (.gen ie) s = .next t ∧ exec (.gen ie) { s with inp := { s.inp with time1 := x } } = .next w
      ∧ t.out.bcdTime0 = w.out.bcdTime0 ∧ t.out.bcdTime1 = w.out.bcdTime1 ∧ t.out.rk0 = w.out.rk0
      ∧ t.out.rk1 = w.out.rk1 ∧ t.out.rk2 = w.out.rk2 ∧ t.out.rk3 = w.out.rk3 ∧ t.out.rk4 = w.out.rk4
      ∧ t.out.k0 = w.out.k0 ∧ t.out.k1 = w.out.k1

/-- R14, R603: `dec(n)` has no leading zero, every digit is below 10, and its value is `n`. -/
def Obligations.DecimalRendering : Prop :=
  ∀ n : Nat, (dec n).foldl (fun a d => 10 * a + d) 0 = n ∧ (∀ d ∈ dec n, d < 10) ∧ dec n ≠ []
    ∧ (n ≠ 0 → (dec n).head? ≠ some 0) ∧ dec 0 = [0]

/-! ### ZEROIZE and the reserved codes -/

/-- R708: ZEROIZE in flight completes with no error: every register but CTRL and STATUS takes its reset value. -/
def Obligations.ZeroizeResult : Prop :=
  (∀ v : Word, v.toNat % 16 = 6 → decode v = .zeroize (v.getLsbD 8))
    ∧ ∀ (ie : Bool) (s : State) (n : Nat), s.seq = .busy 6 n →
      ∃ t, exec (.zeroize ie) s = .next t
        ∧ (∀ r : Reg, r ≠ .ctrl → r ≠ .status → held r t = if r = .flags then 0x000043D9 else 0)
        ∧ t = { s with inp := t.inp, out := t.out, status := completed .noError s.status, seq := .idle }

/-- R709: a reserved code in flight completes with ERR_BADCMD and changes no register but STATUS; from acceptance to
completion LASTCMD holds the code. -/
def Obligations.ReservedCodesFail : Prop :=
  (∀ v : Word, 7 ≤ v.toNat % 16 →
      decode v = if v.toNat % 16 = 7 then .rsvd7 (v.getLsbD 8)
        else .rsvdHigh (BitVec.ofNat 3 (v.toNat % 8)) (v.getLsbD 8))
    ∧ (∀ (ie : Bool) (s : State) (n : Nat), s.seq = .busy 7 n →
        exec (.rsvd7 ie) s = .next (completedWith .badCmd s.out s))
    ∧ (∀ (low : BitVec 3) (ie : Bool) (s : State) (n : Nat), s.seq = .busy (BitVec.ofNat 4 (8 + low.toNat)) n →
        exec (.rsvdHigh low ie) s = .next (completedWith .badCmd s.out s))
    ∧ ∀ (i : Instr) (s : State), s.seq = .idle → 7 ≤ i.code.toNat →
        ∃ t u, exec i s = .next t ∧ t.status.lastCmd = i.code ∧ exec i t = .next u ∧ u.status.lastCmd = i.code

/-- R801, R103: the number of each error name, which a read of STATUS shows in bits [7:4]; bits [11:8] are the last accepted
command. -/
def Obligations.ErrorNumbers : Prop :=
  ([ErrCode.noError, .badCmd, .serial, .seed, .pin, .time, .underflow, .bcdDom, .bcdDig, .cipher].map errBits
    = [0, 1, 2, 3, 4, 5, 6, 7, 8, 9])
    ∧ ∀ s : State, (readReg .status s).extractLsb' 4 4 = errBits s.status.errCode
      ∧ (readReg .status s).extractLsb' 8 4 = s.status.lastCmd

/-! ### Steps -/

/-- R201, R209, R301: while `Idle`, a host write of `v` to CTRL makes the step run the instruction that `v` decodes to. -/
def Obligations.StepRunsWrittenCommand : Prop :=
  ∀ (s : State) (v : Word) (rest : List BusOp), s.seq = .idle → s.pending = .write s.params.base 4 v :: rest →
    step s = exec (decode v) { s with pending := rest }

/-- R131, R704, R705: when the engine moves, the step runs its command if no more than one cycle is left, and only counts
one cycle down if more are (one step of the engine is one cycle, log entry 2). -/
def Obligations.StepRunsCommandInFlight : Prop :=
  ∀ (s u : State) (c : BitVec 4) (n : Nat), s.seq = .busy c n → engineNext s = some u →
    (n ≤ 1 → step s = exec (decode (c.setWidth 32)) u) ∧ (2 ≤ n → step s = .next { u with seq := .busy c (n - 1) })

/-- R700: while the engine is `Idle` and the host has no operation to perform, a step changes nothing (log entry
10; that no reset comes in while the host waits in a WFI is log entry 21). -/
def Obligations.IdleStepChangesNothing : Prop :=
  ∀ s : State, s.seq = .idle → hostNext s = none → step s = .next s

/-- R705: with no host operation left, a command with `k` cycles left is run by the last of them, not before (log
entry 2). -/
def Obligations.CompletesAfterLatency : Prop :=
  ∀ (s : State) (c : BitVec 4) (k : Nat), s.pending = [] → 1 ≤ k → s.seq = .busy c k →
    (∀ j < k, Host.Core.run core j s = .next { s with seq := .busy c (k - j) })
      ∧ Host.Core.run core k s = exec (decode (c.setWidth 32)) { s with seq := .busy c 1 }

/-- R704, R705, R908: from every `Busy` state, whatever the host does and whichever order the environment picks, the engine
is `Idle` again within a bounded number of steps, unless the program is at fault before (log entry 4). -/
def Obligations.BusyEndsWithinBound : Prop :=
  ∀ (s : State) (c : BitVec 4) (n : Nat), s.seq = .busy c n → c ≠ 0 →
    ∃ k, k ≤ s.turns.length + n + 1 ∧
      match Host.Core.run core k s with
      | .next t => t.seq = .idle
      | .fault _ => True
      | .refused _ => True

/-- R814, R310: WFI does not end while `irq` is low, and ends in one step, with no bus access, when it is high. While `Idle`
nothing else changes; while `Busy` with `irq` low the step is the engine's and the WFI stays; while `Busy` with `irq` high it
ends on the host's turn (log entries 2, 4 and 10; that no reset comes in while it waits is log entry 21). -/
def Obligations.WfiWaitsForIrq : Prop :=
  ∀ (s : State) (rest : List BusOp), s.pending = .wfi :: rest →
    (s.seq = .idle → step s = .next (if s.status.done ∧ s.ie then { s with pending := rest } else s))
    ∧ ∀ (c : BitVec 4) (n : Nat), s.seq = .busy c n →
      (¬ (s.status.done ∧ s.ie) →
        (step s = if n ≤ 1 then exec (decode (c.setWidth 32)) s else .next { s with seq := .busy c (n - 1) })
          ∧ ∃ t, step s = .next t ∧ t.pending = s.pending ∧ t.turns = s.turns ∧ t.reads = s.reads)
      ∧ (s.status.done ∧ s.ie → ∀ ts, s.turns = .host :: ts → step s = .next { s with pending := rest, turns := ts })

/-! ### Host accesses -/

/-- R703, R207, R208: while `Busy`, a write to a register other than STATUS is dropped and sets HAZ; one to an RO register or an
unmapped offset is a bus error all the same; one to STATUS is accepted. That the dropped write is a next state and no fault
is log entry 9, that the bus error is a fault of the step is log entry 6, from R811. -/
def Obligations.BusyWriteDropped : Prop :=
  ∀ (s u : State) (off : Nat) (v : Word) (c : BitVec 4) (n : Nat), s.seq = .busy c n → off < 0x100 → off % 4 = 0 →
    hostNext s = some (.write (s.params.base + off) 4 v, u) →
    step s =
      if off ∈ [0x000, 0x00C, 0x010, 0x014, 0x018, 0x01C, 0x020, 0x024, 0x030, 0x034, 0x038, 0x03C, 0x040, 0x044, 0x048,
        0x04C] then .next { u with status := { u.status with haz := true } }
      else if off = 0x004 then .next (writeStatus v u)
      else .fault (.busError off)

/-- R103, R209: what a write to STATUS leaves in STATUS, while `Idle` and while `Busy`: a 1 in DONE, ERR or HAZ clears the
bit, a 1 in ERR clears ERRCODE too, and nothing else of the state changes. -/
def Obligations.StatusWriteOneToClear : Prop :=
  ∀ (s u : State) (v : Word), hostNext s = some (.write (s.params.base + 4) 4 v, u) →
    ∃ t, step s = .next t ∧ t = { u with status := t.status }
      ∧ statusWord t = statusWord u &&& ~~~((v &&& 0x0000000E#32) ||| (if v.getLsbD 2 then 0x000000F0#32 else 0#32))

/-- R209, R208: while `Idle`, a write to a register that a command reads, at its offset in R101, stores the value with the
bits that R105 to R112 reserve 0, and sets the LOADED bit of a SEED, SERIAL or TIME word; every other register, CTRL and
STATUS included, keeps its value. -/
def Obligations.InputWriteStores : Prop :=
  ∀ (s u : State) (row : RegRow) (v : Word), s.seq = .idle → row ∈ registerRows s →
    row.off ∈ [0x00C, 0x010, 0x014, 0x018, 0x01C, 0x020, 0x024, 0x030, 0x034, 0x038, 0x03C, 0x040, 0x044, 0x048, 0x04C] →
    hostNext s = some (.write (s.params.base + row.off) 4 v, u) →
    ∃ t, step s = .next t ∧ t = { u with inp := t.inp }
      ∧ held row.reg t = v &&& row.mask
      ∧ (∀ q : Reg, q ≠ row.reg → q ≠ .loaded → held q t = held q s)
      ∧ held .loaded t = held .loaded s |||
        (if 0x030 ≤ row.off ∧ row.off ≤ 0x03C then 1#32 <<< ((row.off - 0x030) / 4)
         else if row.off = 0x014 then 0x10#32 else if row.off = 0x018 then 0x20#32
         else if row.off = 0x01C then 0x40#32 else if row.off = 0x020 then 0x80#32 else 0#32)

/-- R202: an access inside the window that is not 4 bytes wide or not aligned is a bus error, the reads of a POLL included
(R310; they are 4 bytes wide). That the step then is a fault is log entry 6, from R811. -/
def Obligations.OddAccessesRefused : Prop :=
  (∀ (s u : State) (off n : Nat) (v : Word) (e : Option Word), off < 0x100 → (n ≠ 4 ∨ off % 4 ≠ 0) →
    (hostNext s = some (.write (s.params.base + off) n v, u) ∨ hostNext s = some (.read (s.params.base + off) n e, u)) →
    step s = .fault (.busError off))
    ∧ ∀ (s u : State) (off : Nat) (mask val : Word), off < 0x100 → off % 4 ≠ 0 →
      hostNext s = some (.poll (s.params.base + off) mask val, u) → step s = .fault (.busError off)

/-- R207, R101: an aligned 32-bit access to an offset of the window that holds no register is a bus error, the reads of a POLL
included (R310); those offsets are 0x02C and 0x07C. That the step then is a fault is log entry 6, from R811. -/
def Obligations.UnmappedOffsetsRefused : Prop :=
  (∀ off, off < 0x100 → off % 4 = 0 → (regAt off = none ↔ off = 0x02C ∨ off = 0x07C))
    ∧ ∀ (s u : State) (off : Nat) (v mask val : Word) (e : Option Word), (off = 0x02C ∨ off = 0x07C) →
      (hostNext s = some (.write (s.params.base + off) 4 v, u)
        ∨ hostNext s = some (.read (s.params.base + off) 4 e, u)
        ∨ hostNext s = some (.poll (s.params.base + off) mask val, u)) →
      step s = .fault (.busError off)

/-- R208: a write to a read-only register is a bus error, `Idle` or `Busy`. That the step then is a fault is log entry 6, from
R811. -/
def Obligations.ReadOnlyWritesRefused : Prop :=
  ∀ (s u : State) (off : Nat) (v : Word), off < 0x100 → off % 4 = 0 →
    (off = 0x008 ∨ off = 0x028 ∨ (0x050 ≤ off ∧ off ≠ 0x07C)) →
    hostNext s = some (.write (s.params.base + off) 4 v, u) → step s = .fault (.busError off)

/-- R101 to R121: the register at each offset, the word it holds and its reserved bits, row by row. R210, R208, R111: an
accepted read changes no state of the engine; SEED reads 0 and every other register its value with its reserved bits 0.
R310: the host records the value; that an expected value is recorded beside it and the run goes on whatever it is, is the
model's choice (log entry 13). -/
def Obligations.ReadsHaveNoSideEffect : Prop :=
  (∀ s : State, ∀ row ∈ registerRows s,
    regAt row.off = some row.reg ∧ held row.reg s = row.value ∧ fieldMask row.reg = row.mask)
    ∧ ∀ (s u : State) (row : RegRow) (e : Option Word), row ∈ registerRows s →
      hostNext s = some (.read (s.params.base + row.off) 4 e, u) →
      step s = .next { u with reads := { addr := s.params.base + row.off, value := rowRead row, expect := e } :: s.reads }

/-- R310: one iteration of a POLL reads the register as an RD does and ends the operation exactly when the condition holds;
it changes no state of the engine. That each iteration is recorded is the model's choice (log entry 13), and so is that no
reset comes in during a POLL (log entry 21). -/
def Obligations.PollRepeatsRead : Prop :=
  ∀ (s u : State) (row : RegRow) (mask val : Word), row ∈ registerRows s →
    hostNext s = some (.poll (s.params.base + row.off) mask val, u) →
    step s = .next { u with
      pending := if rowRead row &&& mask = val then u.pending else s.pending
      reads := { addr := s.params.base + row.off, value := rowRead row, expect := none } :: s.reads }

/-- R215, R311, R815: a WAIT polled while the engine is `Busy` (the host's turn, log entry 4) does not end and leaves the
engine as it was (that no reset comes in meanwhile is log entry 21). -/
def Obligations.WaitPollsUntilCompletion : Prop :=
  ∀ (s : State) (c : BitVec 4) (n : Nat) (rest : List BusOp) (ts : List Agent), s.seq = .busy c n →
    s.turns = .host :: ts → s.pending = waitOp s.params.base :: rest →
    ∃ t, step s = .next t ∧ t = { s with turns := ts, reads := t.reads }

/-- R111, R817: the seed cannot be read back: two states that differ only in the seed stay so through every host operation,
and the host records the same values. -/
def Obligations.SeedNeverReachesHost : Prop :=
  ∀ (s : State) (b : Block), (hostNext s).isSome = true →
    (∀ t, step s = .next t →
      nextWith (step { s with inp := { s.inp with seed := b } })
        (fun w => w = { t with inp := { t.inp with seed := w.inp.seed } }))
    ∧ (∀ f, step s = .fault f → step { s with inp := { s.inp with seed := b } } = .fault f)
    ∧ (∀ f, step s = .refused f → step { s with inp := { s.inp with seed := b } } = .refused f)

/-- R900, R901: asserting reset, `Idle` or `Busy`, gives every register its reset value, makes the sequencer `Idle` and
`irq` low in one step; a command in flight is gone. The last clause, that the parameters and the host's lists are not
touched, is the model's, deduced from what R900 lists (log entry 17). That the host asserts reset in
program order is the model's choice too (log entry 21). -/
def Obligations.ResetOperation : Prop :=
  ∀ s u : State, hostNext s = some (.reset, u) →
    ∃ t, step s = .next t ∧ (∀ r : Reg, held r t = if r = .flags then 0x000043D9 else 0) ∧ t.seq = .idle
      ∧ irq t = false
      ∧ t = { u with ie := t.ie, status := t.status, inp := t.inp, out := t.out, seq := t.seq }

/-- R101, R900: in State.reset every register of the map reads 0 but FLAGS, which reads 17369, and the engine is `Idle`. -/
def Obligations.ResetValues : Prop :=
  (∀ p ∈ regMap, readReg p.2 State.reset = if p.2 = .flags then 17369 else 0) ∧ State.reset.seq = .idle

/-- R902: in State.reset GEN, TIME and AESENC end with ERR_SERIAL, ERR_TIME and ERR_SEED; with the latencies of log entry 5
that is the second step. -/
def Obligations.NothingLoadedAfterReset : Prop :=
  [0x1, 0x2, 0x5].map (fun w => match Host.Core.run core 2 (State.reset.withFetchWord 32 w) with
    | .next t => some (statusWord t)
    | .fault _ => none
    | .refused _ => none) = [some 0x00000126, some 0x00000256, some 0x00000536]

/-- R133: `irq` is DONE & IE, as the host reads the two bits. -/
def Obligations.IrqIsDoneAndIe : Prop :=
  ∀ s : State, irq s = ((readReg .status s).getLsbD 1 && (readReg .ctrl s).getLsbD 8)

/-! ### Invariants and whole-machine rules -/

/-- The invariant holds at State.reset (with the reference parameters, log entry 5). -/
def Obligations.InvAtReset : Prop := inv State.reset = true

/-- Every step keeps the invariant: the parameters' constraints, the reserved bits 0, the sequencer and STATUS in agreement,
ERR exactly with an ERRCODE and never ERR_CIPHER, unloaded words 0, OFFSET and CHARLEN in range. -/
def Obligations.StepKeepsInv : Prop := ∀ s t : State, inv s = true → step s = .next t → inv t = true

/-- R10, R201: no step changes the parameters, and the host's operations and the environment's choices are only used up from
the front, one at a time (log entries 3, 4 and 5). -/
def Obligations.ParamsAndProgramKept : Prop :=
  ∀ s t : State, step s = .next t →
    t.params = s.params ∧ (t.pending = s.pending ∨ ∃ op, s.pending = op :: t.pending)
      ∧ (t.turns = s.turns ∨ ∃ a, s.turns = a :: t.turns)

/-- R214, R217: a step from `Busy` to `Busy` leaves every register but STATUS as it was, and the same command in flight. -/
def Obligations.RegistersFrozenWhileBusy : Prop :=
  ∀ (s t : State) (c d : BitVec 4) (m n : Nat), step s = .next t → s.seq = .busy c m → t.seq = .busy d n →
    t.inp = s.inp ∧ t.out = s.out ∧ t.ie = s.ie ∧ d = c ∧ n ≤ m

/-- R132, R211: a result register changes only in a step that ends a command, from `Busy` to `Idle`, or by reset. -/
def Obligations.ResultsCommitAtCompletion : Prop :=
  ∀ s t : State, step s = .next t → t.out ≠ s.out →
    (isBusy s = true ∧ isBusy t = false) ∨ ∃ u, hostNext s = some (.reset, u)

/-- R803: a completion with an error code other than ERR_UNDERFLOW leaves every result register as it was. -/
def Obligations.FailedCommandWritesNoResult : Prop :=
  ∀ (i : Instr) (s t : State), isBusy s = true → exec i s = .next t → isBusy t = false → t.status.err = true →
    t.status.errCode ≠ .underflow → t.out = s.out ∧ t.inp = s.inp

/-- R134: DONE rises only at a completion; it falls only at an acceptance, by a write to STATUS, or by reset. -/
def Obligations.DoneRisesOnlyAtCompletion : Prop :=
  ∀ s t : State, step s = .next t →
    (s.status.done = false → t.status.done = true → isBusy s = true ∧ isBusy t = false)
    ∧ (s.status.done = true → t.status.done = false →
        (isBusy s = false ∧ isBusy t = true)
        ∨ (∃ v u, hostNext s = some (.write (s.params.base + 4) 4 v, u)) ∨ ∃ u, hostNext s = some (.reset, u))

/-- R111: a step changes the seed only by a write to a SEED register, by completing ZEROIZE, or by reset. -/
def Obligations.SeedChangesOnly : Prop :=
  ∀ s t : State, step s = .next t → t.inp.seed ≠ s.inp.seed →
    (∃ w v u, w < 4 ∧ hostNext s = some (.write (s.params.base + 0x030 + 4 * w) 4 v, u))
      ∨ (∃ n, s.seq = .busy 6 n ∧ t.seq = .idle) ∨ ∃ u, hostNext s = some (.reset, u)

/-- R703, R812: HAZ rises exactly in a step that drops a host write (a next state and no fault, log entry 9), so a safe step
never raises it. -/
def Obligations.HazMeansDroppedWrite : Prop :=
  ∀ s t : State, inv s = true → step s = .next t →
    (dropsWrite s = true → t.status.haz = true)
      ∧ (s.status.haz = false → t.status.haz = true → dropsWrite s = true)
      ∧ (safeStep s = true → s.status.haz = false → t.status.haz = false)
end

