-- ==== Sys2Proof/Laws/Bytes.lean ====
section
/-! SUPPORT. Packing and unpacking of bytes (R203), and the fields of a command word (R300). -/

namespace Sys2Proof.Machine

theorem byteAt_be32 (a b c d : Byte) (j : Fin 4) :
    byteAt (be32 a b c d) j = match j with | 0 => a | 1 => b | 2 => c | 3 => d := by
  fin_cases j <;>
  · apply BitVec.eq_of_getElem_eq
    intro i hi
    simp only [byteAt, be32, BitVec.getElem_extractLsb', BitVec.getLsbD_append]
    have : i < 8 := hi
    interval_cases i <;> simp

@[simp] theorem byteAt_be32_zero (a b c d : Byte) : byteAt (be32 a b c d) 0 = a := byteAt_be32 a b c d 0
@[simp] theorem byteAt_be32_one (a b c d : Byte) : byteAt (be32 a b c d) 1 = b := byteAt_be32 a b c d 1
@[simp] theorem byteAt_be32_two (a b c d : Byte) : byteAt (be32 a b c d) 2 = c := byteAt_be32 a b c d 2
@[simp] theorem byteAt_be32_three (a b c d : Byte) : byteAt (be32 a b c d) 3 = d := byteAt_be32 a b c d 3

/-- A byte's index counts modulo 4 (R203). -/
theorem byteAt_mod (w : Word) (j : Nat) : byteAt w (j % 4) = byteAt w j := by simp [byteAt]

/-- Packing the four bytes of a word gives it back (R203). -/
@[simp] theorem be32_byteAt (w : Word) : be32 (byteAt w 0) (byteAt w 1) (byteAt w 2) (byteAt w 3) = w := by
  apply BitVec.eq_of_getLsbD_eq
  intro i hi
  simp only [byteAt, be32, BitVec.getLsbD_append, BitVec.getLsbD_extractLsb']
  interval_cases i <;> simp

/-- Unpacking and packing a block gives it back (R16, R203). -/
@[simp] theorem packBlock_blockBytes (b : Block) : packBlock (blockBytes b) = b := by
  cases b
  simp [packBlock, blockBytes, wordBytes, packWord]

/-- The window of R602 at the offset of word `w` is that word (R205). -/
theorem packWord_drop_blockBytes (b : Block) (w : Fin 4) : packWord ((blockBytes b).drop (4 * w)) 0 = getWord b w := by
  fin_cases w <;> simp [packWord, blockBytes, wordBytes, getWord]

/-- The fields of an encoded instruction (R300). -/
theorem cmdField_encode (i : Instr) : cmdField (encode i) = i.code := by
  have h : ∀ (c : BitVec 4) (b : Bool), cmdField ((if b then 0x100#32 else 0#32) ||| c.setWidth 32) = c := by decide
  exact h i.code i.ie

theorem ieField_encode (i : Instr) : ieField (encode i) = i.ie := by
  have h : ∀ (c : BitVec 4) (b : Bool), ieField ((if b then 0x100#32 else 0#32) ||| c.setWidth 32) = b := by decide
  exact h i.code i.ie

/-- The decoder inverts `code` and `ie` on each row of the map (R301). -/
theorem decodeCmd_code_ie (i : Instr) : decodeCmd i.code i.ie = i := by
  cases i with
  | rsvdHigh low ie =>
    have h : ∀ x : BitVec 3, decodeCmd (1#1 ++ x) ie = .rsvdHigh x ie := by
      cases ie <;> decide
    exact h low
  | _ => rfl

/-- The code and IE of a decoded command word are its fields (R300, R301). -/
theorem decode_code (v : Word) : (decode v).code = cmdField v := by
  have h : ∀ (c : BitVec 4) (b : Bool), (decodeCmd c b).code = c := by decide
  exact h _ _

theorem decode_ie (v : Word) : (decode v).ie = ieField v := by
  have h : ∀ (c : BitVec 4) (b : Bool), (decodeCmd c b).ie = b := by decide
  exact h _ _

/-- CMD as a number (R300). -/
theorem cmdField_toNat (v : Word) : (cmdField v).toNat = v.toNat % 16 := by
  simp [cmdField]

/-- A command word decodes by its CMD and IE fields (R300, R301). -/
theorem decode_of_cmd (v : Word) (c : Nat) (hc : c < 16) (h : v.toNat % 16 = c) :
    decode v = decodeCmd (BitVec.ofNat 4 c) (v.getLsbD 8) := by
  rw [decode, ieField]
  congr 1
  apply BitVec.eq_of_toNat_eq
  rw [cmdField_toNat, h]
  simp
  omega

/-- A byte of a word, as a number (R203). -/
theorem byteAt_toNat (w : Word) (j : Nat) : (byteAt w j).toNat = w.toNat / 2 ^ (24 - 8 * (j % 4)) % 256 := by
  simp [byteAt, Nat.shiftRight_eq_div_pow]

end Sys2Proof.Machine
end

