-- ==== Sys2Proof/Laws/Operands.lean ====
section
/-! SUPPORT. What the operand fields, the flags, the packed-BCD functions and the validation predicates compute, in the arithmetic of the statements. -/

namespace Sys2Proof.Machine

/-- R304, on the domain of R400. -/
theorem bcd_eq : ∀ n : Fin 100, bcd n = BitVec.ofNat 8 (16 * (n/10) + n % 10) := by decide

/-- R109. -/
theorem operand_toNat (inp : Inputs) : (operand inp).toNat = inp.opnd.toNat % 256 := by simp [operand]

/-- R305. -/
theorem highNibble_toNat (b : Byte) : (highNibble b).toNat = b.toNat / 16 := by
  simp [highNibble, Nat.shiftRight_eq_div_pow]; omega

theorem lowNibble_toNat (b : Byte) : (lowNibble b).toNat = b.toNat % 16 := by
  simp [lowNibble]

/-- The fields of TIME0 and TIME1 (R108). -/
theorem year_eq (i : Inputs) : year i = yearOf i := by simp [year, yearOf]

theorem month_eq (i : Inputs) : month i = monthOf i := by
  have := i.time1.isLt
  simp [month, monthOf, Nat.shiftRight_eq_div_pow]; omega

theorem day_eq (i : Inputs) : day i = dayOf i := by simp [day, dayOf, Nat.shiftRight_eq_div_pow]

theorem hour_eq (i : Inputs) : hour i = hourOf i := by simp [hour, hourOf, Nat.shiftRight_eq_div_pow]

theorem minute_eq (i : Inputs) : (minute i).toNat = minuteOf i := by simp [minute, minuteOf]

/-- Two and four LOADED bits at once (R104). -/
theorem bits_two : ∀ x : BitVec 2, (x = 0b11#2) ↔ (x.getLsbD 0 = true ∧ x.getLsbD 1 = true) := by decide

theorem bits_four : ∀ x : BitVec 4, (x = 0b1111#4) ↔ (x.getLsbD 0 = true ∧ x.getLsbD 1 = true ∧ x.getLsbD 2 = true ∧ x.getLsbD 3 = true) := by decide

/-- `TIME_OK` (R408). -/
theorem timeOk_iff (i : Inputs) : timeOk i = true ↔ validTime i := by
  simp only [timeOk, validTime, bits_two, year_eq, month_eq, day_eq, hour_eq, minute_eq, Bool.and_eq_true, decide_eq_true_eq]
  simp
  tauto

/-- `SEED_OK` (R707). -/
theorem seedOk_iff (i : Inputs) : seedOk i = true ↔ validSeed i := by
  simp only [seedOk, bits_four, validSeed, decide_eq_true_eq]
  simp
  constructor
  · rintro ⟨a,b,c,d⟩ i hi
    interval_cases i <;> simpa
  · intro h
    exact ⟨by simpa using h 0 (by omega), by simpa using h 1 (by omega), by simpa using h 2 (by omega), by simpa using h 3 (by omega)⟩

/-- R106. -/
theorem pinDigit_eq (i : Inputs) (k : Nat) (h : k < 8) : pinDigit i k = pinNibble i k := by
  simp only [pinDigit, pinNibble, BitVec.extractLsb'_toNat, Nat.shiftRight_eq_div_pow]
  interval_cases k <;> simp

/-- `PIN_OK` (R707). -/
theorem pinOk_iff (i : Inputs) : pinOk i = true ↔ validPin i := by
  simp only [pinOk, pinDigits, List.all_eq_true, List.mem_map, List.mem_range, decide_eq_true_eq, validPin]
  constructor
  · intro h k hk
    rw [← pinDigit_eq i k hk]; exact h _ ⟨k, hk, rfl⟩
  · rintro h _ ⟨k, hk, rfl⟩
    rw [pinDigit_eq i k hk]; exact h k hk

/-- R400. -/
theorem bcdValid_iff (b : Byte) : bcdValid b = true ↔ b.toNat / 16 ≤ 9 ∧ b.toNat % 16 ≤ 9 := by
  simp [bcdValid, highNibble_toNat, lowNibble_toNat]

/-- `SERIAL_OK` (R707). -/
theorem serialOk_iff (i : Inputs) : serialOk i = true ↔ validSerial i := by
  simp only [serialOk, bits_two, Bool.and_eq_true, decide_eq_true_eq, validSerial, serialBytes, wordBytes, List.cons_append, List.nil_append,
    List.all_cons, List.all_nil, bcdValid_iff, byteAt_toNat, serialDigit]
  have h0 := i.serial0.isLt
  have h1 := i.serial1.isLt
  generalize i.serial0.toNat = a at *
  generalize i.serial1.toNat = b at *
  have key : (∀ j < 12, (a * 2 ^ 16 + b / 2 ^ 16) / 16 ^ (11 - j) % 16 ≤ 9) ↔
     ((((a * 2 ^ 16 + b / 2 ^ 16) / 16 ^ 11 % 16 ≤ 9 ∧ (a * 2 ^ 16 + b / 2 ^ 16) / 16 ^ 10 % 16 ≤ 9) ∧
     ((a * 2 ^ 16 + b / 2 ^ 16) / 16 ^ 9 % 16 ≤ 9 ∧ (a * 2 ^ 16 + b / 2 ^ 16) / 16 ^ 8 % 16 ≤ 9) ∧
     ((a * 2 ^ 16 + b / 2 ^ 16) / 16 ^ 7 % 16 ≤ 9 ∧ (a * 2 ^ 16 + b / 2 ^ 16) / 16 ^ 6 % 16 ≤ 9) ∧
     ((a * 2 ^ 16 + b / 2 ^ 16) / 16 ^ 5 % 16 ≤ 9 ∧ (a * 2 ^ 16 + b / 2 ^ 16) / 16 ^ 4 % 16 ≤ 9) ∧
     ((a * 2 ^ 16 + b / 2 ^ 16) / 16 ^ 3 % 16 ≤ 9 ∧ (a * 2 ^ 16 + b / 2 ^ 16) / 16 ^ 2 % 16 ≤ 9) ∧
     ((a * 2 ^ 16 + b / 2 ^ 16) / 16 ^ 1 % 16 ≤ 9 ∧ (a * 2 ^ 16 + b / 2 ^ 16) / 16 ^ 0 % 16 ≤ 9))) := by
    constructor
    · intro h
      exact ⟨⟨h 0 (by omega), h 1 (by omega)⟩, ⟨h 2 (by omega), h 3 (by omega)⟩, ⟨h 4 (by omega), h 5 (by omega)⟩, ⟨h 6 (by omega), h 7 (by omega)⟩, ⟨h 8 (by omega), h 9 (by omega)⟩, ⟨h 10 (by omega), h 11 (by omega)⟩⟩
    · rintro ⟨⟨q0,q1⟩,⟨q2,q3⟩,⟨q4,q5⟩,⟨q6,q7⟩,⟨q8,q9⟩,⟨q10,q11⟩⟩ j hj
      interval_cases j <;> assumption
  rw [key]
  have e0 : (a * 2 ^ 16 + b / 2 ^ 16) / 16 ^ 11 % 16 = a / 2^(24 - 8 * (0%4)) % 256 / 16 := by norm_num; omega
  have e1 : (a * 2 ^ 16 + b / 2 ^ 16) / 16 ^ 10 % 16 = a / 2^(24 - 8 * (0%4)) % 256 % 16 := by norm_num; omega
  have e2 : (a * 2 ^ 16 + b / 2 ^ 16) / 16 ^ 9 % 16 = a / 2^(24 - 8 * (1%4)) % 256 / 16 := by norm_num; omega
  have e3 : (a * 2 ^ 16 + b / 2 ^ 16) / 16 ^ 8 % 16 = a / 2^(24 - 8 * (1%4)) % 256 % 16 := by norm_num; omega
  have e4 : (a * 2 ^ 16 + b / 2 ^ 16) / 16 ^ 7 % 16 = a / 2^(24 - 8 * (2%4)) % 256 / 16 := by norm_num; omega
  have e5 : (a * 2 ^ 16 + b / 2 ^ 16) / 16 ^ 6 % 16 = a / 2^(24 - 8 * (2%4)) % 256 % 16 := by norm_num; omega
  have e6 : (a * 2 ^ 16 + b / 2 ^ 16) / 16 ^ 5 % 16 = a / 2^(24 - 8 * (3%4)) % 256 / 16 := by norm_num; omega
  have e7 : (a * 2 ^ 16 + b / 2 ^ 16) / 16 ^ 4 % 16 = a / 2^(24 - 8 * (3%4)) % 256 % 16 := by norm_num; omega
  have e8 : (a * 2 ^ 16 + b / 2 ^ 16) / 16 ^ 3 % 16 = b / 2^(24 - 8 * (0%4)) % 256 / 16 := by norm_num; omega
  have e9 : (a * 2 ^ 16 + b / 2 ^ 16) / 16 ^ 2 % 16 = b / 2^(24 - 8 * (0%4)) % 256 % 16 := by norm_num; omega
  have e10 : (a * 2 ^ 16 + b / 2 ^ 16) / 16 ^ 1 % 16 = b / 2^(24 - 8 * (1%4)) % 256 / 16 := by norm_num; omega
  have e11 : (a * 2 ^ 16 + b / 2 ^ 16) / 16 ^ 0 % 16 = b / 2^(24 - 8 * (1%4)) % 256 % 16 := by norm_num; omega
  rw [e0,e1,e2,e3,e4,e5,e6,e7,e8,e9,e10,e11]
  simp [and_assoc]

/-- R650. -/
theorem flagsField_toNat (i : Inputs) : (flagsField i).toNat = i.flags.toNat % 2^16 := by simp [flagsField]

/-- The cadence (R652), as arithmetic on FLAGS. -/
theorem cad60_iff (p : Params) (i : Inputs) : cad60 p i = true ↔ sixtySeconds p i := by
  have h : intervalSel p (flagsField i) = i.flags.toNat % 2 ^ 16 / 2 ^ p.intervalShift % 4 := by
    simp only [intervalSel, BitVec.toNat_and, BitVec.toNat_ushiftRight, Nat.shiftRight_eq_div_pow, flagsField_toNat]
    exact Nat.and_two_pow_sub_one_eq_mod _ 2
  simp [cad60, interval60, h]

/-- The output length (R651), as arithmetic on FLAGS. -/
theorem genLen_eq (p : Params) (i : Inputs) : genLen p i = lenOf p i := by
  have h : digitCount p (flagsField i) = i.flags.toNat % 2 ^ 16 / 2 ^ p.digitShift % 8 := by
    simp only [digitCount, BitVec.toNat_and, BitVec.toNat_ushiftRight, Nat.shiftRight_eq_div_pow, flagsField_toNat]
    exact Nat.and_two_pow_sub_one_eq_mod _ 3
  rw [genLen, outLen, h, lenOf]

/-- R600, R601. -/
theorem offsetOf_arith : ∀ (m : Byte), offsetOf m true = 4 * (m.toNat % 4) ∧ offsetOf m false = 8 * (m.toNat % 2) + (if 30 ≤ m.toNat then 4 else 0) := by decide

/-- R402. -/
theorem maskMinute_arith : ∀ m : Byte, (maskMinute m true).toNat = m.toNat / 4 * 4 ∧ (maskMinute m false).toNat = m.toNat / 2 * 2 := by decide

/-- The offset of an instant (R600, R601). -/
theorem offsetOf_eq (p : Params) (i : Inputs) : offsetOf (minute i) (cad60 p i) = offsetArith p i := by
  rw [offsetArith]
  cases h : cad60 p i
  · rw [if_neg (by rw [← cad60_iff, h]; simp), (offsetOf_arith _).2, minute_eq]
  · rw [if_pos (by rw [← cad60_iff, h]), (offsetOf_arith _).1, minute_eq]

/-- The masked minute of an instant (R402). -/
theorem maskMinute_eq (p : Params) (i : Inputs) : (maskMinute (minute i) (cad60 p i)).toNat = maskedMinute p i := by
  rw [maskedMinute]
  cases h : cad60 p i
  · rw [if_neg (by rw [← cad60_iff, h]; simp), (maskMinute_arith _).2, minute_eq]
  · rw [if_pos (by rw [← cad60_iff, h]), (maskMinute_arith _).1, minute_eq]

theorem bcd_packed (n : Nat) (h : n < 100) : bcd n = packed n := bcd_eq ⟨n, h⟩

theorem maskedMinute_lt (p : Params) (i : Inputs) (h : minuteOf i ≤ 59) : maskedMinute p i < 100 := by
  unfold maskedMinute; split <;> omega

/-- R403. -/
theorem timeBytes_eq (p : Params) (i : Inputs) (h : validTime i) : instantTime p i = timeBytes p i := by
  obtain ⟨_, _, h1, h2, h3, h4, h5, h6, h7⟩ := h
  simp only [instantTime, bcdTime, timeBytes, year_eq, month_eq, day_eq, hour_eq, maskMinute_eq]
  rw [bcd_packed _ (by omega), bcd_packed _ (by omega), bcd_packed _ (by omega), bcd_packed _ (by omega), bcd_packed _ (by omega), bcd_packed _ (maskedMinute_lt p i h7)]
  rfl

/-- The offset is a multiple of 4 below 16 (R115). -/
theorem offset_form (p : Params) (i : Inputs) : ∃ w : Fin 4, offsetArith p i = 4 * w := by
  unfold offsetArith
  split
  · exact ⟨⟨minuteOf i % 4, by omega⟩, rfl⟩
  · split
    · exact ⟨⟨2 * (minuteOf i % 2) + 1, by omega⟩, by simp; omega⟩
    · exact ⟨⟨2 * (minuteOf i % 2), by omega⟩, by simp; omega⟩

/-- LEN is 1 to 8 (R651). -/
theorem lenOf_bounds (p : Params) (i : Inputs) : 1 ≤ lenOf p i ∧ lenOf p i ≤ 8 := by unfold lenOf; omega

end Sys2Proof.Machine
end

