-- ==== Sys2Proof/Laws/Extract.lean ====
section
/-! SUPPORT. Decimal digits, PIN sums and their rendering (R603 to R607), and padded byte strings. -/

namespace Sys2Proof.Machine

/-- More fuel than the number changes nothing. -/
theorem decDigits_fuel : ∀ (n f g : Nat), n ≤ f → n ≤ g → decDigits f n = decDigits g n := by
  intro n
  induction n using Nat.strong_induction_on with
  | _ n ih =>
    intro f g hf hg
    cases f with
    | zero => cases g with
      | zero => rfl
      | succ g => have : n = 0 := by omega
                  subst this; rfl
    | succ f => cases g with
      | zero => have : n = 0 := by omega
                subst this; rfl
      | succ g =>
        simp only [decDigits]
        split
        · rfl
        · rw [ih (n/10) (by omega) f g (by omega) (by omega)]

/-- R14: a number below 10 is one digit. -/
theorem dec_small {n : Nat} (h : n < 10) : dec n = [n] := by
  unfold dec
  cases n with
  | zero => rfl
  | succ n => simp [decDigits, h]

/-- R14: the last digit of a larger number. -/
theorem dec_big {n : Nat} (h : 10 ≤ n) : dec n = dec (n/10) ++ [n % 10] := by
  unfold dec
  cases n with
  | zero => omega
  | succ n =>
    rw [decDigits, if_neg (by omega), decDigits_fuel ((n+1)/10) n ((n+1)/10) (by omega) (by omega)]

theorem dec_length_pos (n : Nat) : 0 < (dec n).length := by
  by_cases h : n < 10
  · simp [dec_small h]
  · simp [dec_big (Nat.le_of_not_lt h)]

/-- R603: the number of digits. -/
theorem dec_length_lt (k : Nat) : ∀ n, (dec n).length ≤ k + 1 ↔ n < 10^(k+1) := by
  induction k with
  | zero =>
    intro n
    by_cases h : n < 10
    · simp [dec_small h, h]
    · have := dec_length_pos (n/10)
      rw [dec_big (Nat.le_of_not_lt h), List.length_append, List.length_singleton]; omega
  | succ k ih =>
    intro n
    by_cases h : n < 10
    · simp [dec_small h]
      calc n < 10^1 := by simpa
        _ ≤ 10^(k+1+1) := Nat.pow_le_pow_right (by omega) (by omega)
    · rw [dec_big (Nat.le_of_not_lt h)]
      simp only [List.length_append, List.length_singleton, Nat.add_le_add_iff_right, ih]
      rw [Nat.pow_succ 10 (k+1)]
      omega

/-- R605: the rightmost digits, by position. -/
theorem dec_drop : ∀ (len n : Nat), len ≤ (dec n).length →
    (dec n).drop ((dec n).length - len) = (List.range len).map (fun i => n / 10^(len-1-i) % 10) := by
  intro len
  induction len with
  | zero => intro n _; simp
  | succ len ih =>
    intro n hl
    by_cases h : n < 10
    · rw [dec_small h] at hl ⊢
      have : len = 0 := by simpa using hl
      subst this
      simp; omega
    · rw [dec_big (Nat.le_of_not_lt h)] at hl ⊢
      have hl' : len ≤ (dec (n/10)).length := by simpa using hl
      have e : (dec (n / 10) ++ [n % 10]).length - (len+1) = (dec (n/10)).length - len := by simp
      rw [e, List.drop_append_of_le_length (by omega), ih _ hl', List.range_succ, List.map_append]
      congr 1
      · apply List.map_congr_left
        intro i hi
        have hi' : i < len := by simpa using hi
        have e1 : len + 1 - 1 - i = (len - 1 - i) + 1 := by omega
        rw [e1, Nat.pow_succ, Nat.mul_comm, Nat.div_div_eq_div_mul]
      · simp

/-- R604: an underflow, by the value of the word. -/
theorem underflows_iff (w : Word) (len : Nat) (h : 1 ≤ len) : underflows w len = true ↔ 2 ≤ len ∧ w.toNat < 10^(len-1) := by
  simp only [underflows, decide_eq_true_eq]
  have hp := dec_length_pos w.toNat
  by_cases h2 : 2 ≤ len
  · have := dec_length_lt (len - 2) w.toNat
    have e : len - 2 + 1 = len - 1 := by omega
    rw [e] at this
    constructor
    · intro hh; exact ⟨h2, this.1 (by omega)⟩
    · intro hh; have := this.2 hh.2; omega
  · constructor
    · intro hh; omega
    · intro hh; omega

/-- R605, R606: the sums of a GEN that does not underflow. -/
theorem genSums_eq (i : Inputs) (w : Word) (len : Nat) (h : underflows w len = false) (h8 : len ≤ 8) :
    genSums w len (pinDigits i) = (List.range len).map (sumAt i w.toNat len) := by
  simp only [genSums, h]
  simp only [underflows, decide_eq_false_iff_not, Nat.not_lt] at h
  rw [if_neg (by simp), pinSums, selectDigits, dec_drop _ _ h]
  apply List.ext_getElem
  · simp [pinDigits]; omega
  · intro k h1 h2
    have hk : k < len := by simpa using h2
    simp [pinDigits, sumAt, pinDigit_eq i k (by omega)]

/-- R606: a sum of two decimal digits is at most 18. -/
theorem sumAt_le (i : Inputs) (hp : validPin i) (w len k : Nat) (hk : k < 8) : sumAt i w len k ≤ 18 := by
  have := hp k hk
  unfold sumAt; omega

/-- R607: a sum is rendered in one or two digits. -/
theorem dec_sumDigits (n : Nat) (h : n ≤ 18) : dec n = sumDigits n := by
  unfold sumDigits
  split
  · rename_i h; exact dec_small h
  · rw [dec_big (by omega), dec_small (by omega)]
    have : n / 10 = 1 := by omega
    rw [this]; simp; omega

/-- R607: CODE as the renderings of the sums. -/
theorem codeDigits_eq (i : Inputs) (hp : validPin i) (w len : Nat) (h8 : len ≤ 8) :
    codeDigits ((List.range len).map (sumAt i w len)) = ((List.range len).map (sumAt i w len)).flatMap sumDigits := by
  unfold codeDigits
  rw [List.flatMap_map, List.flatMap_map]
  have : ∀ l : List Nat, (∀ k ∈ l, k < 8) → l.flatMap (fun a => dec (sumAt i w len a)) = l.flatMap (fun a => sumDigits (sumAt i w len a)) := by
    intro l
    induction l with
    | nil => intro _; rfl
    | cons x xs ih =>
      intro hl
      rw [List.flatMap_cons, List.flatMap_cons, ih (fun k hk => hl k (List.mem_cons_of_mem _ hk)), dec_sumDigits _ (sumAt_le i hp w len x (hl x (by simp)))]
  exact this _ (fun k hk => by have := List.mem_range.1 hk; omega)

/-- R607: each sum of 10 or more adds a character. -/
theorem flatMap_sumDigits_length : ∀ (l : List Nat) (f : Nat → Nat), ((l.map f).flatMap sumDigits).length = l.length + (l.filter (fun i => 10 ≤ f i)).length := by
  intro l f
  induction l with
  | nil => rfl
  | cons x xs ih =>
    rw [List.map_cons, List.flatMap_cons, List.length_append, ih, List.filter_cons]
    unfold sumDigits
    by_cases h : f x < 10
    · rw [if_pos h, if_neg (by simp; omega)]; simp; omega
    · rw [if_neg h, if_pos (by simp; omega)]; simp; omega

theorem getD_pad (n : Nat) (b : Bytes) (k : Nat) : (padTo n b).getD k 0 = b.getD k 0 := by
  unfold padTo
  by_cases h : k < b.length
  · simp [List.getD, List.getElem?_append_left h]
  · rw [List.getD_eq_default b 0 (by omega)]
    rw [List.getD, List.getElem?_append_right (by omega)]
    cases hh : (List.replicate (n - b.length) (0x00#8))[k - b.length]? with
    | none => rfl
    | some x =>
      have := List.mem_of_getElem? hh
      simp at this
      simp [this.2]

theorem packWord_pad (n : Nat) (b : Bytes) (k : Nat) : packWord (padTo n b) k = packWord b k := by
  simp only [packWord, getD_pad]

theorem packBlock_pad (n : Nat) (b : Bytes) : packBlock (padTo n b) = packBlock b := by
  simp only [packBlock, packWord_pad]

/-- R203: byte `j` of a packed block. -/
theorem packBlock_byte (b : Bytes) (j : Fin 16) : byteAt (getWord (packBlock b) (Fin.ofNat 4 (j/4))) j = b.getD j 0 := by
  fin_cases j <;> simp [packBlock, getWord, packWord] <;> rw [← byteAt_mod] <;> simp

end Sys2Proof.Machine
end

