-- ==== Sys2Proof/Laws/State.lean ====
section
/-! SUPPORT. What each operation over the state does to each field: one lemma per field per operation. -/

namespace Sys2Proof.Machine

@[simp] theorem storeReg_params (r : Reg) (v : Word) (s : State) : (storeReg r v s).params = s.params := rfl
@[simp] theorem storeReg_ie (r : Reg) (v : Word) (s : State) : (storeReg r v s).ie = s.ie := rfl
@[simp] theorem storeReg_status (r : Reg) (v : Word) (s : State) : (storeReg r v s).status = s.status := rfl
@[simp] theorem storeReg_inp (r : Reg) (v : Word) (s : State) : (storeReg r v s).inp = storeInput r v s.inp := rfl
@[simp] theorem storeReg_out (r : Reg) (v : Word) (s : State) : (storeReg r v s).out = s.out := rfl
@[simp] theorem storeReg_seq (r : Reg) (v : Word) (s : State) : (storeReg r v s).seq = s.seq := rfl
@[simp] theorem storeReg_pending (r : Reg) (v : Word) (s : State) : (storeReg r v s).pending = s.pending := rfl
@[simp] theorem storeReg_reads (r : Reg) (v : Word) (s : State) : (storeReg r v s).reads = s.reads := rfl
@[simp] theorem storeReg_turns (r : Reg) (v : Word) (s : State) : (storeReg r v s).turns = s.turns := rfl

@[simp] theorem writeStatus_params (v : Word) (s : State) : (writeStatus v s).params = s.params := rfl
@[simp] theorem writeStatus_ie (v : Word) (s : State) : (writeStatus v s).ie = s.ie := rfl
@[simp] theorem writeStatus_status (v : Word) (s : State) : (writeStatus v s).status = clearStatus v s.status := rfl
@[simp] theorem writeStatus_inp (v : Word) (s : State) : (writeStatus v s).inp = s.inp := rfl
@[simp] theorem writeStatus_out (v : Word) (s : State) : (writeStatus v s).out = s.out := rfl
@[simp] theorem writeStatus_seq (v : Word) (s : State) : (writeStatus v s).seq = s.seq := rfl
@[simp] theorem writeStatus_pending (v : Word) (s : State) : (writeStatus v s).pending = s.pending := rfl
@[simp] theorem writeStatus_reads (v : Word) (s : State) : (writeStatus v s).reads = s.reads := rfl
@[simp] theorem writeStatus_turns (v : Word) (s : State) : (writeStatus v s).turns = s.turns := rfl

@[simp] theorem dropWrite_params (s : State) : (dropWrite s).params = s.params := rfl
@[simp] theorem dropWrite_ie (s : State) : (dropWrite s).ie = s.ie := rfl
@[simp] theorem dropWrite_status (s : State) : (dropWrite s).status = { s.status with haz := true } := rfl
@[simp] theorem dropWrite_inp (s : State) : (dropWrite s).inp = s.inp := rfl
@[simp] theorem dropWrite_out (s : State) : (dropWrite s).out = s.out := rfl
@[simp] theorem dropWrite_seq (s : State) : (dropWrite s).seq = s.seq := rfl
@[simp] theorem dropWrite_pending (s : State) : (dropWrite s).pending = s.pending := rfl
@[simp] theorem dropWrite_reads (s : State) : (dropWrite s).reads = s.reads := rfl
@[simp] theorem dropWrite_turns (s : State) : (dropWrite s).turns = s.turns := rfl

@[simp] theorem accept_params (c : BitVec 4) (ie : Bool) (s : State) : (accept c ie s).params = s.params := rfl
@[simp] theorem accept_ie (c : BitVec 4) (ie : Bool) (s : State) : (accept c ie s).ie = ie := rfl
@[simp] theorem accept_status (c : BitVec 4) (ie : Bool) (s : State) : (accept c ie s).status = { s.status with done := false, err := false, errCode := .noError, lastCmd := c } := rfl
@[simp] theorem accept_inp (c : BitVec 4) (ie : Bool) (s : State) : (accept c ie s).inp = s.inp := rfl
@[simp] theorem accept_out (c : BitVec 4) (ie : Bool) (s : State) : (accept c ie s).out = s.out := rfl
@[simp] theorem accept_seq (c : BitVec 4) (ie : Bool) (s : State) : (accept c ie s).seq = .busy c (latency s.params.lat c) := rfl
@[simp] theorem accept_pending (c : BitVec 4) (ie : Bool) (s : State) : (accept c ie s).pending = s.pending := rfl
@[simp] theorem accept_reads (c : BitVec 4) (ie : Bool) (s : State) : (accept c ie s).reads = s.reads := rfl
@[simp] theorem accept_turns (c : BitVec 4) (ie : Bool) (s : State) : (accept c ie s).turns = s.turns := rfl

@[simp] theorem complete_params (e : ErrCode) (s : State) : (complete e s).params = s.params := rfl
@[simp] theorem complete_ie (e : ErrCode) (s : State) : (complete e s).ie = s.ie := rfl
@[simp] theorem complete_status (e : ErrCode) (s : State) : (complete e s).status = { s.status with done := true, err := decide (e ≠ .noError), errCode := e } := rfl
@[simp] theorem complete_inp (e : ErrCode) (s : State) : (complete e s).inp = s.inp := rfl
@[simp] theorem complete_out (e : ErrCode) (s : State) : (complete e s).out = s.out := rfl
@[simp] theorem complete_seq (e : ErrCode) (s : State) : (complete e s).seq = .idle := rfl
@[simp] theorem complete_pending (e : ErrCode) (s : State) : (complete e s).pending = s.pending := rfl
@[simp] theorem complete_reads (e : ErrCode) (s : State) : (complete e s).reads = s.reads := rfl
@[simp] theorem complete_turns (e : ErrCode) (s : State) : (complete e s).turns = s.turns := rfl

@[simp] theorem resetEngine_params (s : State) : (resetEngine s).params = s.params := rfl
@[simp] theorem resetEngine_ie (s : State) : (resetEngine s).ie = false := rfl
@[simp] theorem resetEngine_status (s : State) : (resetEngine s).status = Status.reset := rfl
@[simp] theorem resetEngine_inp (s : State) : (resetEngine s).inp = Inputs.reset := rfl
@[simp] theorem resetEngine_out (s : State) : (resetEngine s).out = Results.reset := rfl
@[simp] theorem resetEngine_seq (s : State) : (resetEngine s).seq = .idle := rfl
@[simp] theorem resetEngine_pending (s : State) : (resetEngine s).pending = s.pending := rfl
@[simp] theorem resetEngine_reads (s : State) : (resetEngine s).reads = s.reads := rfl
@[simp] theorem resetEngine_turns (s : State) : (resetEngine s).turns = s.turns := rfl

@[simp] theorem record_params (a : Nat) (v : Word) (e : Option Word) (s : State) : (record a v e s).params = s.params := rfl
@[simp] theorem record_ie (a : Nat) (v : Word) (e : Option Word) (s : State) : (record a v e s).ie = s.ie := rfl
@[simp] theorem record_status (a : Nat) (v : Word) (e : Option Word) (s : State) : (record a v e s).status = s.status := rfl
@[simp] theorem record_inp (a : Nat) (v : Word) (e : Option Word) (s : State) : (record a v e s).inp = s.inp := rfl
@[simp] theorem record_out (a : Nat) (v : Word) (e : Option Word) (s : State) : (record a v e s).out = s.out := rfl
@[simp] theorem record_seq (a : Nat) (v : Word) (e : Option Word) (s : State) : (record a v e s).seq = s.seq := rfl
@[simp] theorem record_pending (a : Nat) (v : Word) (e : Option Word) (s : State) : (record a v e s).pending = s.pending := rfl
@[simp] theorem record_reads (a : Nat) (v : Word) (e : Option Word) (s : State) : (record a v e s).reads = { addr := a, value := v, expect := e } :: s.reads := rfl
@[simp] theorem record_turns (a : Nat) (v : Word) (e : Option Word) (s : State) : (record a v e s).turns = s.turns := rfl

@[simp] theorem placeCommand_params (v : Word) (s : State) : (placeCommand v s).params = s.params := rfl
@[simp] theorem placeCommand_ie (v : Word) (s : State) : (placeCommand v s).ie = s.ie := rfl
@[simp] theorem placeCommand_status (v : Word) (s : State) : (placeCommand v s).status = s.status := rfl
@[simp] theorem placeCommand_inp (v : Word) (s : State) : (placeCommand v s).inp = s.inp := rfl
@[simp] theorem placeCommand_out (v : Word) (s : State) : (placeCommand v s).out = s.out := rfl
@[simp] theorem placeCommand_seq (v : Word) (s : State) : (placeCommand v s).seq = .idle := rfl
@[simp] theorem placeCommand_pending (v : Word) (s : State) : (placeCommand v s).pending = .write s.params.base 4 v :: s.pending := rfl
@[simp] theorem placeCommand_reads (v : Word) (s : State) : (placeCommand v s).reads = s.reads := rfl
@[simp] theorem placeCommand_turns (v : Word) (s : State) : (placeCommand v s).turns = s.turns := rfl

@[simp] theorem setLoaded_loaded (i : Inputs) (b : Nat) : (setLoaded i b).loaded = i.loaded ||| (1#32 <<< b) := rfl
@[simp] theorem setLoaded_flags (i : Inputs) (b : Nat) : (setLoaded i b).flags = i.flags := rfl
@[simp] theorem setLoaded_pin (i : Inputs) (b : Nat) : (setLoaded i b).pin = i.pin := rfl
@[simp] theorem setLoaded_serial0 (i : Inputs) (b : Nat) : (setLoaded i b).serial0 = i.serial0 := rfl
@[simp] theorem setLoaded_serial1 (i : Inputs) (b : Nat) : (setLoaded i b).serial1 = i.serial1 := rfl
@[simp] theorem setLoaded_time0 (i : Inputs) (b : Nat) : (setLoaded i b).time0 = i.time0 := rfl
@[simp] theorem setLoaded_time1 (i : Inputs) (b : Nat) : (setLoaded i b).time1 = i.time1 := rfl
@[simp] theorem setLoaded_opnd (i : Inputs) (b : Nat) : (setLoaded i b).opnd = i.opnd := rfl
@[simp] theorem setLoaded_seed (i : Inputs) (b : Nat) : (setLoaded i b).seed = i.seed := rfl
@[simp] theorem setLoaded_auxBlk (i : Inputs) (b : Nat) : (setLoaded i b).auxBlk = i.auxBlk := rfl

@[simp] theorem setWord_zero (b : Block) (v : Word) : setWord b 0 v = { b with w0 := v } := rfl
@[simp] theorem setWord_one (b : Block) (v : Word) : setWord b 1 v = { b with w1 := v } := rfl
@[simp] theorem setWord_two (b : Block) (v : Word) : setWord b 2 v = { b with w2 := v } := rfl
@[simp] theorem setWord_three (b : Block) (v : Word) : setWord b 3 v = { b with w3 := v } := rfl

/-- A write to one word of a group is read back, and leaves the other words. -/
theorem getWord_setWord (b : Block) (w x : Fin 4) (v : Word) :
    getWord (setWord b w v) x = if x = w then v else getWord b x := by
  fin_cases w <;> fin_cases x <;> rfl

@[simp] theorem isBusy_idle (s : State) (h : s.seq = .idle) : isBusy s = false := by simp [isBusy, h]

@[simp] theorem isBusy_busy (s : State) (c : BitVec 4) (n : Nat) (h : s.seq = .busy c n) : isBusy s = true := by
  simp [isBusy, h]

end Sys2Proof.Machine
end

