-- ==== Sys2Proof/Laws/Step.lean ====
section
/-! SUPPORT. What the shared operations can do: a command's two steps, where an access lands, a host write, and one step of the machine by the agent that moves. -/

namespace Sys2Proof.Machine

/-! ### Commands -/

theorem commandStep_idle {s : State} (h : s.seq = .idle) (c : BitVec 4) (ie : Bool) (rule : State → State) :
    commandStep c ie rule s = .next (accept c ie s) := by simp [commandStep, h]

theorem commandStep_own {s : State} {c : BitVec 4} {n : Nat} (h : s.seq = .busy c n) (ie : Bool)
    (rule : State → State) : commandStep c ie rule s = .next (rule s) := by simp [commandStep, h]

theorem commandStep_other {s : State} {c d : BitVec 4} {n : Nat} (h : s.seq = .busy d n) (hd : d ≠ c) (ie : Bool)
    (rule : State → State) : commandStep c ie rule s = .next (dropWrite s) := by simp [commandStep, h, hd]

/-- The completion rule of a command word (R704). CMD 0 has none. -/
def ruleOf : Instr → State → State
  | .noCmd _ => dropWrite
  | .gen _ => genRule
  | .time _ => timeRule
  | .bcdenc _ => bcdencRule
  | .bcddec _ => bcddecRule
  | .aesenc _ => aesencRule
  | .zeroize _ => zeroizeRule
  | .rsvd7 _ => reservedRule
  | .rsvdHigh _ _ => reservedRule

/-- Every command word but CMD 0 is one `commandStep`. -/
theorem exec_eq_commandStep (i : Instr) (s : State) (h : i.code ≠ 0) :
    exec i s = commandStep i.code i.ie (ruleOf i) s := by
  cases i <;> first | rfl | exact absurd rfl h

/-- R701: while `Idle` a nonzero command is accepted. -/
theorem exec_idle (i : Instr) {s : State} (hs : s.seq = .idle) (h : i.code ≠ 0) :
    exec i s = .next (accept i.code i.ie s) := by rw [exec_eq_commandStep i s h, commandStep_idle hs]

/-- R704: a command in flight completes by its own rule. -/
theorem exec_own (i : Instr) {s : State} {n : Nat} (hs : s.seq = .busy i.code n) (h : i.code ≠ 0) :
    exec i s = .next (ruleOf i s) := by rw [exec_eq_commandStep i s h, commandStep_own hs]

theorem rsvdHigh_code_ne (low : BitVec 3) (ie : Bool) : (Instr.rsvdHigh low ie).code ≠ 0 := by
  have h : ∀ x : BitVec 3, (1#1 ++ x : BitVec 4) ≠ 0 := by decide
  exact h low

/-- Only CMD 0 has code 0 (R301). -/
theorem code_eq_zero {i : Instr} (h : i.code = 0) : ∃ ie, i = .noCmd ie := by
  cases i with
  | noCmd ie => exact ⟨ie, rfl⟩
  | rsvdHigh low ie => exact absurd h (rsvdHigh_code_ne low ie)
  | _ => simp [Instr.code] at h

/-- R703: another command word while `Busy` is dropped. -/
theorem exec_other (i : Instr) {s : State} {c : BitVec 4} {n : Nat} (hs : s.seq = .busy c n) (h : c ≠ i.code) :
    exec i s = .next (dropWrite s) := by
  by_cases h0 : i.code = 0
  · obtain ⟨ie, rfl⟩ := code_eq_zero h0
    simp [exec, execNoCmd, hs]
  · rw [exec_eq_commandStep i s h0, commandStep_other hs h]

/-- R702. -/
theorem exec_noCmd_idle (ie : Bool) {s : State} (hs : s.seq = .idle) :
    exec (.noCmd ie) s = .next { s with ie := ie } := by simp [exec, execNoCmd, hs]

/-- Everything one instruction can do: it is accepted, it only sets IE, it completes, or it is dropped. -/
theorem exec_cases {i : Instr} {s t : State} (h : exec i s = .next t) :
    (s.seq = .idle ∧ i.code ≠ 0 ∧ t = accept i.code i.ie s)
    ∨ (s.seq = .idle ∧ i.code = 0 ∧ t = { s with ie := i.ie })
    ∨ (∃ n, s.seq = .busy i.code n ∧ i.code ≠ 0 ∧ t = ruleOf i s)
    ∨ (∃ c n, s.seq = .busy c n ∧ (c ≠ i.code ∨ c = 0) ∧ t = dropWrite s) := by
  by_cases h0 : i.code = 0
  · obtain ⟨ie, rfl⟩ := code_eq_zero h0
    cases hs : s.seq with
    | idle =>
      rw [exec_noCmd_idle ie hs] at h
      exact .inr (.inl ⟨rfl, h0, by cases h; simp [hs, Instr.ie]⟩)
    | busy c n =>
      simp only [exec, execNoCmd, hs] at h
      exact .inr (.inr (.inr ⟨c, n, rfl, by
        by_cases hc : c = 0
        · exact .inr hc
        · exact .inl (by rw [h0]; exact hc), by cases h; rfl⟩))
  · cases hs : s.seq with
    | idle =>
      rw [exec_idle i hs h0] at h
      exact .inl ⟨rfl, h0, by cases h; rfl⟩
    | busy c n =>
      by_cases hc : c = i.code
      · subst hc
        rw [exec_own i hs h0] at h
        exact .inr (.inr (.inl ⟨n, rfl, h0, by cases h; rfl⟩))
      · rw [exec_other i hs hc] at h
        exact .inr (.inr (.inr ⟨c, n, rfl, .inl hc, by cases h; rfl⟩))

/-- An instruction never stops: it always answers a next state. -/
theorem exec_next (i : Instr) (s : State) : ∃ t, exec i s = .next t := by
  by_cases h0 : i.code = 0
  · obtain ⟨ie, rfl⟩ := code_eq_zero h0
    cases hs : s.seq with
    | idle => exact ⟨_, exec_noCmd_idle _ hs⟩
    | busy c n => exact ⟨dropWrite s, by simp [exec, execNoCmd, hs]⟩
  · rw [exec_eq_commandStep i s h0, commandStep]
    cases s.seq with
    | idle => exact ⟨_, rfl⟩
    | busy c n => by_cases hc : c = i.code <;> simp [hc]

/-- A completion rule ends with `complete`: some code, input registers kept or cleared, result registers written (R704). -/
theorem ruleOf_eq_complete (i : Instr) (s : State) (h : i.code ≠ 0) :
    ∃ e o p, e ≠ .cipher ∧ ruleOf i s = complete e { s with inp := p, out := o } ∧ (p = s.inp ∨ p = Inputs.reset ∧ i.code = 6) := by
  cases i with
  | noCmd ie => exact absurd rfl h
  | gen ie =>
    simp only [ruleOf, genRule]
    cases hc : genCheck s.inp with
    | noError =>
      refine ⟨genOutcome s.params s.inp, _, s.inp, ?_, rfl, .inl rfl⟩
      unfold genOutcome
      split <;> simp
    | cipher =>
      exfalso
      revert hc
      unfold genCheck
      split
      · simp
      · split
        · simp
        · split
          · simp
          · split <;> simp
    | _ => exact ⟨_, s.out, s.inp, by simp, rfl, .inl rfl⟩
  | time ie =>
    simp only [ruleOf, timeRule]
    split
    · exact ⟨.noError, _, s.inp, by simp, rfl, .inl rfl⟩
    · exact ⟨.time, s.out, s.inp, by simp, rfl, .inl rfl⟩
  | bcdenc ie =>
    simp only [ruleOf, bcdencRule]
    split
    · exact ⟨.bcdDom, s.out, s.inp, by simp, rfl, .inl rfl⟩
    · exact ⟨.noError, _, s.inp, by simp, rfl, .inl rfl⟩
  | bcddec ie =>
    simp only [ruleOf, bcddecRule]
    split
    · exact ⟨.noError, _, s.inp, by simp, rfl, .inl rfl⟩
    · exact ⟨.bcdDig, s.out, s.inp, by simp, rfl, .inl rfl⟩
  | aesenc ie =>
    simp only [ruleOf, aesencRule]
    split
    · exact ⟨.noError, _, s.inp, by simp, rfl, .inl rfl⟩
    · exact ⟨.seed, s.out, s.inp, by simp, rfl, .inl rfl⟩
  | zeroize ie => exact ⟨.noError, Results.reset, Inputs.reset, by simp, rfl, .inr ⟨rfl, rfl⟩⟩
  | rsvd7 ie => exact ⟨.badCmd, s.out, s.inp, by simp, rfl, .inl rfl⟩
  | rsvdHigh low ie => exact ⟨.badCmd, s.out, s.inp, by simp, rfl, .inl rfl⟩

/-- An instruction leaves the parameters and the host's lists as they are (R701 to R704). -/
theorem exec_host_fields {i : Instr} {s t : State} (h : exec i s = .next t) :
    t.params = s.params ∧ t.pending = s.pending ∧ t.turns = s.turns ∧ t.reads = s.reads := by
  rcases exec_cases h with ⟨_, _, rfl⟩ | ⟨_, _, rfl⟩ | ⟨_, _, h0, rfl⟩ | ⟨_, _, _, _, rfl⟩
  · exact ⟨rfl, rfl, rfl, rfl⟩
  · exact ⟨rfl, rfl, rfl, rfl⟩
  · obtain ⟨e, o, p, _, h1, _⟩ := ruleOf_eq_complete i s h0
    rw [h1]
    exact ⟨rfl, rfl, rfl, rfl⟩
  · exact ⟨rfl, rfl, rfl, rfl⟩

/-- The command code in flight decodes to an instruction with that code (R301). -/
theorem decode_cmd_code : ∀ c : BitVec 4, (decode (c.setWidth 32)).code = c := by decide

/-! ### Where an access lands -/

/-- A register's offset is one of the map's rows (R101). -/
theorem regAt_mem {off : Nat} {r : Reg} (h : regAt off = some r) : (off, r) ∈ regMap := by
  have : ∀ l : List (Nat × Reg), l.lookup off = some r → (off, r) ∈ l := by
    intro l
    induction l with
    | nil => simp
    | cons q l ih =>
      rw [List.lookup_cons]
      split
      · rename_i hq
        intro hr
        have h1 : off = q.1 := by simpa using hq
        have h2 : q.2 = r := by simpa using hr
        exact List.mem_cons.mpr (.inl (by rw [h1, ← h2]))
      · intro hr
        exact List.mem_cons.mpr (.inr (ih hr))
  exact this regMap h

/-- A register's offset lies in the window and is aligned (R101, R202). -/
theorem regAt_lt {off : Nat} {r : Reg} (h : regAt off = some r) : off < 0x100 ∧ off % 4 = 0 := by
  have hm : ∀ q ∈ regMap, q.1 < 0x100 ∧ q.1 % 4 = 0 := by decide
  exact hm _ (regAt_mem h)

/-- The map is one to one (R101). -/
theorem regAt_unique {off off' : Nat} {r : Reg} (h : regAt off = some r) (h' : regAt off' = some r) : off = off' := by
  have hm : ∀ q ∈ regMap, ∀ q' ∈ regMap, q.2 = q'.2 → q.1 = q'.1 := by decide +kernel
  exact hm _ (regAt_mem h) _ (regAt_mem h') rfl

/-- An access of 4 bytes at the offset of a register lands on it (R101, R202). -/
theorem landing_reg {off : Nat} {r : Reg} (h : regAt off = some r) (p : Params) :
    landing p (p.base + off) 4 = .reg off r := by
  obtain ⟨h1, h2⟩ := regAt_lt h
  simp [landing, h2, h, h1]

/-- An access inside the window that is not 4 bytes wide or not aligned is refused (R202). -/
theorem landing_odd {off n : Nat} (h : off < 0x100) (hn : n ≠ 4 ∨ off % 4 ≠ 0) (p : Params) :
    landing p (p.base + off) n = .busError off := by
  have e1 : ¬ (p.base + off < p.base ∨ p.base + 0x100 ≤ p.base + off) := by omega
  have e2 : p.base + off - p.base = off := by omega
  simp only [landing, if_neg e1, e2, if_pos hn]

/-- An aligned access to an offset that holds no register is refused (R207). -/
theorem landing_unmapped {off : Nat} (h : off < 0x100) (ha : off % 4 = 0) (hr : regAt off = none) (p : Params) :
    landing p (p.base + off) 4 = .busError off := by
  simp [landing, ha, hr, h]

/-! ### Host writes -/

/-- Everything an accepted host write can come to (R209): a W1C write to STATUS, a dropped write, a command word, or a
store. -/
theorem hostWrite_cases (addr n : Nat) (v : Word) (s : State) :
    (∃ off, landing s.params addr n = .reg off .status ∧ hostWrite addr n v s = .answer (.next (writeStatus v s)))
    ∨ (∃ off r, landing s.params addr n = .reg off r ∧ writable r = true ∧ r ≠ .status ∧ isBusy s = true
        ∧ hostWrite addr n v s = .answer (.next (dropWrite s)))
    ∨ (∃ off, landing s.params addr n = .reg off .ctrl ∧ isBusy s = false ∧ hostWrite addr n v s = .run (decode v) s)
    ∨ (∃ off r, landing s.params addr n = .reg off r ∧ writable r = true ∧ r ≠ .status ∧ r ≠ .ctrl
        ∧ isBusy s = false ∧ hostWrite addr n v s = .answer (.next (storeReg r v s)))
    ∨ (∃ off r, landing s.params addr n = .reg off r ∧ writable r = false
        ∧ hostWrite addr n v s = .answer (.fault (.busError off)))
    ∨ (∃ off, landing s.params addr n = .busError off ∧ hostWrite addr n v s = .answer (.fault (.busError off)))
    ∨ (landing s.params addr n = .outside ∧ hostWrite addr n v s = .answer (.refused (.outsideWindow addr))) := by
  cases hl : landing s.params addr n with
  | outside => simp [hostWrite, hl]
  | busError off => simp [hostWrite, hl]
  | reg off r =>
    cases hb : isBusy s <;> cases r <;> simp [hostWrite, hl, hb, writable]

/-! ### Who moves -/

@[simp] theorem resolve_run (i : Instr) (s : State) : resolve (.run i s) = exec i s := rfl
@[simp] theorem resolve_answer (o : Host.Outcome State Fault Refusal) : resolve (.answer o) = o := rfl

/-- What the host's next operation is taken from (R700): the head of `pending`, with the choice of the host used up while
`Busy`. -/
theorem hostNext_some {s u : State} {op : BusOp} (h : hostNext s = some (op, u)) :
    s.pending = op :: u.pending ∧ u = { s with pending := u.pending, turns := u.turns } ∧ hostReady s = true
      ∧ ((s.seq = .idle ∧ u.turns = s.turns) ∨ ∃ c n, s.seq = .busy c n ∧ s.turns = .host :: u.turns) := by
  unfold hostNext at h
  split at h
  · cases h
  · rename_i op' rest hp
    split at h
    · rename_i hr
      split at h
      · rename_i hq
        cases h
        exact ⟨hp, rfl, hr, .inl ⟨hq, rfl⟩⟩
      · rename_i c n ts hq ht
        cases h
        exact ⟨hp, rfl, hr, .inr ⟨c, n, hq, ht⟩⟩
      · cases h
    · cases h

/-- The host's step (R700, R310). -/
theorem step_host {s u : State} {op : BusOp} (h : hostNext s = some (op, u)) :
    step s = resolve (hostMove op u.pending { u with pending := s.pending }) := by
  obtain ⟨hp, hu, hr, hq | ⟨c, n, hq, ht⟩⟩ := hostNext_some h
  · have hu' : ({ u with pending := s.pending } : State) = s := by rw [hu, hq.2]
    simp only [step, schedule, hq.1, hostTurn, hu']
    rw [hp]
    simp [hr]
  · have hu' : ({ u with pending := s.pending } : State) = { s with turns := u.turns } := by rw [hu]
    have hr' : hostReady { s with turns := u.turns } = true := by
      rw [← hr]; simp [hostReady, hp, irq]
    have hh : hostTurn { s with turns := u.turns } = hostMove op u.pending { s with turns := u.turns } := by
      simp only [hostTurn, hp]
      rw [hp] at hr'
      simp [hr']
    simp only [step, schedule, hq, ht, hr, if_true, hu']
    rw [← hq, ← hh]

/-- What the engine's next cycle is taken from (R700). -/
theorem engineNext_some {s u : State} (h : engineNext s = some u) :
    u = { s with turns := u.turns } ∧ (∃ c n, s.seq = .busy c n)
      ∧ (u.turns = s.turns ∨ s.turns = .engine :: u.turns) ∧ (hostReady s = true → u.turns = s.turns → s.turns = []) := by
  unfold engineNext at h
  split at h
  · cases h
  · rename_i c n hq
    split at h
    · split at h
      · rename_i ht
        cases h
        exact ⟨rfl, ⟨c, n, hq⟩, .inl rfl, fun _ _ => ht⟩
      · rename_i ts ht
        cases h
        refine ⟨rfl, ⟨c, n, hq⟩, .inr ht, fun _ e => ?_⟩
        rw [ht] at e
        exact absurd (congrArg List.length e) (by simp)
      · cases h
    · rename_i hr
      cases h
      exact ⟨rfl, ⟨c, n, hq⟩, .inl rfl, fun e => absurd e hr⟩

/-- The engine's step (R704, R131). -/
theorem step_engine {s u : State} {c : BitVec 4} {n : Nat} (hq : s.seq = .busy c n) (h : engineNext s = some u) :
    step s = if n ≤ 1 then exec (decode (c.setWidth 32)) u else .next { u with seq := .busy c (n - 1) } := by
  have key : schedule s = engineMove c n u := by
    unfold engineNext at h
    simp only [hq] at h
    unfold schedule
    simp only [hq]
    split at h
    · rename_i hr
      simp only [hr, if_true]
      split at h
      · rename_i ht
        cases h
        first | rfl | simp only [ht]
      · rename_i ts ht
        cases h
        first | rfl | simp only [ht]
      · cases h
    · rename_i hr
      cases h
      simp [hr]
  rw [step, key, engineMove]
  by_cases hn : n ≤ 1 <;> simp [hn]

/-- Exactly one agent moves, or none: while `Idle` and the host has nothing to do, nothing changes (R700). -/
theorem agents (s : State) :
    (∃ op u, hostNext s = some (op, u) ∧ engineNext s = none) ∨ (∃ u, engineNext s = some u ∧ hostNext s = none)
      ∨ (hostNext s = none ∧ engineNext s = none ∧ s.seq = .idle ∧ step s = .next s) := by
  cases hq : s.seq with
  | idle =>
    cases hp : s.pending with
    | nil => exact .inr (.inr ⟨by simp [hostNext, hp], by simp [engineNext, hq], rfl, by
        simp [step, schedule, hq, hostTurn, hp]⟩)
    | cons op rest =>
      cases hr : hostReady s with
      | true => exact .inl ⟨op, _, by simp only [hostNext, hp, hr, hq, if_true]; rfl, by simp [engineNext, hq]⟩
      | false => exact .inr (.inr ⟨by simp [hostNext, hp, hr], by simp [engineNext, hq], rfl, by
          simp [step, schedule, hq, hostTurn, hp, hr]⟩)
  | busy c n =>
    cases hr : hostReady s with
    | false =>
      refine .inr (.inl ⟨s, by simp [engineNext, hq, hr], ?_⟩)
      unfold hostNext
      split
      · rfl
      · simp [hr]
    | true =>
      cases hp : s.pending with
      | nil => simp [hostReady, hp] at hr
      | cons op rest =>
        cases ht : s.turns with
        | nil => exact .inr (.inl ⟨s, by simp [engineNext, hq, hr, ht], by simp [hostNext, hp, hr, hq, ht]⟩)
        | cons a ts =>
          cases a with
          | host => exact .inl ⟨op, _, by simp only [hostNext, hp, hr, hq, ht, if_true]; rfl, by simp [engineNext, hq, hr, ht]⟩
          | engine => exact .inr (.inl ⟨_, by simp only [engineNext, hq, hr, ht, if_true]; rfl, by simp [hostNext, hp, hr, hq, ht]⟩)

/-- A host operation leaves the engine's part of the state to the move (R700). -/
theorem hostNext_fields {s u : State} {op : BusOp} (h : hostNext s = some (op, u)) :
    u.params = s.params ∧ u.ie = s.ie ∧ u.status = s.status ∧ u.inp = s.inp ∧ u.out = s.out ∧ u.seq = s.seq
      ∧ u.reads = s.reads := by
  obtain ⟨_, hu, _⟩ := hostNext_some h
  rw [hu]
  exact ⟨rfl, rfl, rfl, rfl, rfl, rfl, rfl⟩

theorem step_write {s u : State} {a n : Nat} {v : Word} (h : hostNext s = some (.write a n v, u)) :
    step s = resolve (hostWrite a n v u) := by
  rw [step_host h]
  rfl

theorem step_read {s u : State} {a n : Nat} {e : Option Word} (h : hostNext s = some (.read a n e, u)) :
    step s = resolve (hostRead a n u (fun v => record a v e u)) := by
  rw [step_host h]
  simp only [hostMove, hostRead]
  rfl

/-- Everything a host operation that goes on can leave (R209, R210, R310, R703, R900), `u` being the state with the
operation taken off. -/
inductive HostMoved (s u t : State) : BusOp → Prop where
  | status (a n off : Nat) (v : Word) (hl : landing s.params a n = .reg off .status) (ht : t = writeStatus v u) :
    HostMoved s u t (.write a n v)
  | dropped (a n off : Nat) (v : Word) (r : Reg) (hl : landing s.params a n = .reg off r) (hw : writable r = true)
    (hr : r ≠ .status) (hb : isBusy s = true) (ht : t = dropWrite u) : HostMoved s u t (.write a n v)
  | command (a n off : Nat) (v : Word) (hl : landing s.params a n = .reg off .ctrl) (hb : s.seq = .idle)
    (ht : exec (decode v) u = .next t) : HostMoved s u t (.write a n v)
  | stored (a n off : Nat) (v : Word) (r : Reg) (hl : landing s.params a n = .reg off r) (hw : writable r = true)
    (hr : r ≠ .status) (hc : r ≠ .ctrl) (hb : s.seq = .idle) (ht : t = storeReg r v u) :
    HostMoved s u t (.write a n v)
  | read (a n : Nat) (e : Option Word) (ht : t = { u with reads := t.reads }) : HostMoved s u t (.read a n e)
  | poll (a : Nat) (m v : Word) (hp : t.pending = u.pending ∨ t.pending = s.pending)
    (ht : t = { u with reads := t.reads, pending := t.pending }) : HostMoved s u t (.poll a m v)
  | wfi (ht : t = u) : HostMoved s u t .wfi
  | reset (ht : t = resetEngine u) : HostMoved s u t .reset

/-- Everything a step that goes on can do (R700). -/
inductive Stepped (s t : State) : Prop where
  | quiet (hq : s.seq = .idle) (ht : t = s) : Stepped s t
  | counted (u : State) (c : BitVec 4) (n : Nat) (hu : engineNext s = some u) (hq : s.seq = .busy c n) (hn : 2 ≤ n)
    (ht : t = { u with seq := .busy c (n - 1) }) : Stepped s t
  | ended (u : State) (i : Instr) (n : Nat) (hu : engineNext s = some u) (hq : s.seq = .busy i.code n)
    (hc : i.code ≠ 0) (ht : t = ruleOf i u) : Stepped s t
  | stuck (u : State) (n : Nat) (hu : engineNext s = some u) (hq : s.seq = .busy 0 n) (ht : t = dropWrite u) :
    Stepped s t
  | host (u : State) (op : BusOp) (hu : hostNext s = some (op, u)) (hm : HostMoved s u t op) : Stepped s t

theorem seq_idle {s : State} (h : isBusy s = false) : s.seq = .idle := by
  cases hq : s.seq with
  | idle => rfl
  | busy c n => simp [isBusy, hq] at h

/-- The cases of a host operation. -/
theorem host_moved {s u t : State} {op : BusOp} (hu : hostNext s = some (op, u)) (h : step s = .next t) :
    HostMoved s u t op := by
  obtain ⟨hp, _, _, _, _, hq, _⟩ := hostNext_fields hu
  have hb : isBusy u = isBusy s := by simp [isBusy, hq]
  cases op with
  | write a n v =>
    rw [step_write hu] at h
    rcases hostWrite_cases a n v u with ⟨off, hl, e⟩ | ⟨off, r, hl, hw, hr, hy, e⟩ | ⟨off, hl, hy, e⟩ |
      ⟨off, r, hl, hw, hr, hc, hy, e⟩ | ⟨off, r, hl, hw, e⟩ | ⟨off, hl, e⟩ | ⟨hl, e⟩ <;> rw [e] at h <;>
      rw [hp] at hl <;> simp only [resolve_answer, resolve_run] at h
    · cases h; exact .status a n off v hl rfl
    · cases h; exact .dropped a n off v r hl hw hr (hb ▸ hy) rfl
    · exact .command a n off v hl (seq_idle (hb ▸ hy)) h
    · cases h; exact .stored a n off v r hl hw hr hc (seq_idle (hb ▸ hy)) rfl
    · cases h
    · cases h
    · cases h
  | read a n e =>
    rw [step_read hu, hostRead] at h
    split at h <;> simp only [resolve_answer] at h <;> cases h
    exact .read a n e rfl
  | poll a m v =>
    rw [step_host hu] at h
    simp only [hostMove, hostRead] at h
    split at h <;> simp only [resolve_answer] at h
    · cases h
    · cases h
    · split at h <;> cases h
      · exact .poll a m v (.inl rfl) rfl
      · exact .poll a m v (.inr rfl) rfl
  | wfi =>
    rw [step_host hu] at h
    cases h
    exact .wfi rfl
  | reset =>
    rw [step_host hu] at h
    cases h
    exact .reset rfl

/-- The cases of a step. -/
theorem stepped {s t : State} (h : step s = .next t) : Stepped s t := by
  rcases agents s with ⟨op, u, hu, _⟩ | ⟨u, hu, _⟩ | ⟨_, _, hq, hs⟩
  · exact .host u op hu (host_moved hu h)
  · obtain ⟨hf, ⟨c, n, hq⟩, _⟩ := engineNext_some hu
    rw [step_engine hq hu] at h
    by_cases hn : n ≤ 1
    · rw [if_pos hn] at h
      have hqu : u.seq = .busy c n := by rw [hf]; exact hq
      have hcode := decode_cmd_code c
      by_cases hc : c = 0
      · subst hc
        obtain ⟨ie, hi⟩ := code_eq_zero hcode
        rw [hi] at h
        simp only [exec, execNoCmd, hqu] at h
        cases h
        exact .stuck u n hu hq rfl
      · rw [exec_own (n := n) _ (by rw [hcode]; exact hqu) (by rw [hcode]; exact hc)] at h
        cases h
        exact .ended u _ n hu (by rw [hcode]; exact hq) (by rw [hcode]; exact hc) rfl
    · rw [if_neg hn] at h
      cases h
      exact .counted u c n hu hq (by omega) rfl
  · rw [hs] at h
    cases h
    exact .quiet hq rfl

/-! ### Fields -/

/-- What the engine leaves to its move (R700). -/
theorem engineNext_fields {s u : State} (h : engineNext s = some u) : u.params = s.params ∧ u.ie = s.ie ∧ u.status = s.status ∧ u.inp = s.inp ∧ u.out = s.out ∧ u.seq = s.seq ∧ u.reads = s.reads ∧ u.pending = s.pending := by
  have := (engineNext_some h).1
  rw [this]; exact ⟨rfl, rfl, rfl, rfl, rfl, rfl, rfl, rfl⟩

/-- A completion, as one update (R704). -/
theorem ruleOf_fields (i : Instr) (s : State) (h : i.code ≠ 0) :
    ∃ e o p, e ≠ .cipher ∧ ruleOf i s = { s with inp := p, out := o, status := completed e s.status, seq := .idle } ∧ (p = s.inp ∨ p = Inputs.reset ∧ i.code = 6) := by
  obtain ⟨e, o, p, h1, h2, h3⟩ := ruleOf_eq_complete i s h
  exact ⟨e, o, p, h1, h2, h3⟩

/-- A failed completion other than an underflow writes no register but STATUS (R803). -/
theorem ruleOf_failed (i : Instr) (s : State) (h : i.code ≠ 0) (h1 : (ruleOf i s).status.err = true) (h2 : (ruleOf i s).status.errCode ≠ .underflow) :
    (ruleOf i s).out = s.out ∧ (ruleOf i s).inp = s.inp := by
  cases i with
  | noCmd ie => exact absurd rfl h
  | gen ie =>
    cases hc : genCheck s.inp with
    | noError =>
      simp only [ruleOf, genRule, hc, complete_status] at h1 h2
      unfold genOutcome at h1 h2
      cases hu : underflows (genWord s.params s.inp) (genLen s.params s.inp) <;> simp [hu] at h1 h2
    | _ => simp only [ruleOf, genRule, hc]; exact ⟨rfl, rfl⟩
  | time ie =>
    simp only [ruleOf, timeRule] at h1 ⊢
    split at h1 <;> simp_all
  | bcdenc ie =>
    simp only [ruleOf, bcdencRule] at h1 ⊢
    split at h1 <;> simp_all
  | bcddec ie =>
    simp only [ruleOf, bcddecRule] at h1 ⊢
    split at h1 <;> simp_all
  | aesenc ie =>
    simp only [ruleOf, aesencRule] at h1 ⊢
    split at h1 <;> simp_all
  | zeroize ie => simp [ruleOf, zeroizeRule] at h1
  | rsvd7 ie => exact ⟨rfl, rfl⟩
  | rsvdHigh l ie => exact ⟨rfl, rfl⟩

/-- An instruction run while `Idle` (R701, R702). -/
theorem exec_idle_fields {i : Instr} {s t : State} (hs : s.seq = .idle) (h : exec i s = .next t) :
    t = { s with ie := i.ie } ∧ i.code = 0 ∨ t = accept i.code i.ie s ∧ i.code ≠ 0 := by
  rcases exec_cases h with ⟨_, h1, h2⟩ | ⟨_, h1, h2⟩ | ⟨n, h1, _⟩ | ⟨c, n, h1, _⟩
  · exact .inr ⟨h2, h1⟩
  · exact .inl ⟨h2, h1⟩
  · rw [hs] at h1; cases h1
  · rw [hs] at h1; cases h1

/-- While `Idle` the host performs its next operation. -/
theorem hostNext_idle {s : State} {op : BusOp} {rest : List BusOp} (hs : s.seq = .idle) (hp : s.pending = op :: rest) (hw : op ≠ .wfi) :
    hostNext s = some (op, { s with pending := rest }) := by
  have hr : hostReady s = true := by cases op <;> simp_all [hostReady]
  simp only [hostNext, hp, hr, hs, if_true]

/-- With no host operation left the engine moves. -/
theorem engineNext_alone {s : State} {c n} (hs : s.seq = .busy c n) (hp : s.pending = []) : engineNext s = some s := by
  simp [engineNext, hs, hostReady, hp]

/-- An access that lands on a register is 4 bytes wide at its offset (R202). -/
theorem landing_inv {p : Params} {a n off : Nat} {r : Reg} (hl : landing p a n = .reg off r) : a = p.base + off ∧ n = 4 ∧ regAt off = some r := by
  unfold landing at hl
  split at hl; · cases hl
  split at hl; · cases hl
  rename_i x y
  split at hl
  · cases hl
  · rename_i hr; cases hl
    refine ⟨by omega, by omega, hr⟩

/-- The word a register holds depends on the engine alone. -/
theorem held_congr {s u : State} (h : u.ie = s.ie ∧ u.status = s.status ∧ u.inp = s.inp ∧ u.out = s.out ∧ u.seq = s.seq) (r : Reg) :
    held r u = held r s := by
  obtain ⟨h1, h2, h3, h4, h5⟩ := h
  cases r <;> simp [held, ctrlWord, statusWord, isBusy, h1, h2, h3, h4, h5]

theorem held_hostNext {s u : State} {op : BusOp} (h : hostNext s = some (op, u)) (r : Reg) : held r u = held r s := by
  obtain ⟨_, h1, h2, h3, h4, h5, _⟩ := hostNext_fields h
  exact held_congr ⟨h1, h2, h3, h4, h5⟩ r

/-! ### Runs -/

theorem run_zero (s : State) : Host.Core.run core 0 s = .next s := rfl

theorem run_succ_next {s t : State} (h : step s = .next t) (k : Nat) :
    Host.Core.run core (k + 1) s = Host.Core.run core k t := by
  have h' : core.step s = .next t := h
  simp only [Host.Core.run, h']

theorem run_succ_fault {s : State} {f : Fault} (h : step s = .fault f) (k : Nat) :
    Host.Core.run core (k + 1) s = .fault f := by
  have h' : core.step s = .fault f := h
  simp only [Host.Core.run, h']

theorem run_succ_refused {s : State} {f : Refusal} (h : step s = .refused f) (k : Nat) :
    Host.Core.run core (k + 1) s = .refused f := by
  have h' : core.step s = .refused f := h
  simp only [Host.Core.run, h']

end Sys2Proof.Machine
end

