-- ==== Sys2Proof/Laws/Gen.lean ====
section
/-! SUPPORT. The two ways a GEN completes (R706, R707), and what it computes in the arithmetic of the statements. -/

namespace Sys2Proof.Machine

/-- The validation of GEN passes (R707). -/
theorem genCheck_of_valid (i : Inputs) (h : validGen i) : genCheck i = .noError := by
  obtain ⟨a,b,c,d⟩ := h
  simp [genCheck, (serialOk_iff i).2 a, (seedOk_iff i).2 b, (pinOk_iff i).2 c, (timeOk_iff i).2 d]

/-- Exactly when every check passes (R707). -/
theorem genCheck_noError (i : Inputs) : genCheck i = .noError ↔ validGen i := by
  constructor
  · intro h
    unfold genCheck at h
    split at h; · cases h
    split at h; · cases h
    split at h; · cases h
    split at h; · cases h
    rename_i a b c d
    exact ⟨(serialOk_iff i).1 (by simpa using a), (seedOk_iff i).1 (by simpa using b), (pinOk_iff i).1 (by simpa using c), (timeOk_iff i).1 (by simpa using d)⟩
  · exact genCheck_of_valid i

/-- A GEN that passed validation (R706). -/
theorem exec_gen_valid (ie : Bool) (s : State) (n : Nat) (hs : s.seq = .busy 1 n) (h : validGen s.inp) :
    exec (.gen ie) s = .next (completedWith (genOutcome s.params s.inp) (genResults s.params s.inp s.out) s) := by
  rw [exec_own (.gen ie) hs (by simp [Instr.code])]
  simp only [ruleOf, genRule, genCheck_of_valid _ h]
  rfl

/-- A GEN that failed a check (R707). -/
theorem exec_gen_invalid (ie : Bool) (s : State) (n : Nat) (hs : s.seq = .busy 1 n) (e : ErrCode) (he : e ≠ .noError) (h : genCheck s.inp = e) :
    exec (.gen ie) s = .next (completedWith e s.out s) := by
  rw [exec_own (.gen ie) hs (by simp [Instr.code])]
  simp only [ruleOf, genRule, h]
  cases e <;> rfl

theorem serialBytes_eq (i : Inputs) : serialBytes i = wordBytes i.serial0 ++ (wordBytes i.serial1).take 2 := rfl

theorem genOffset_eq (p : Params) (i : Inputs) : genOffset p i = offsetArith p i := offsetOf_eq p i

/-- R602, R205. -/
theorem genWord_eq (p : Params) (i : Inputs) : genWord p i = getWord (genCascade p i).k0 (Fin.ofNat 4 (offsetArith p i / 4)) := by
  obtain ⟨w, hw⟩ := offset_form p i
  rw [genWord, genOffset_eq, hw, window, packWord_drop_blockBytes]
  congr 1
  ext
  simp [Fin.ofNat, Nat.mod_eq_of_lt w.isLt]

/-- R551, R706. -/
theorem genCascade_eq (p : Params) (i : Inputs) (h : validTime i) : genCascade p i = cascade i.seed (timeBytes p i) (wordBytes i.serial0 ++ (wordBytes i.serial1).take 2) := by
  rw [genCascade, timeBytes_eq p i h, serialBytes_eq]

theorem genOutcome_noError (p : Params) (i : Inputs) (h : decide (genOutcome p i ≠ .noError) = false) : underflows (genWord p i) (lenOf p i) = false := by
  rw [← genLen_eq]
  unfold genOutcome at h
  split at h
  · simp at h
  · rename_i h'; simpa using h'

/-- R607: the number of characters. -/
theorem codeDigits_genSums (p : Params) (i : Inputs) (hv : validPin i) (h : underflows (genWord p i) (lenOf p i) = false) :
   codeDigits (genSums (genWord p i) (lenOf p i) (pinDigits i)) = ((List.range (lenOf p i)).map (sumAt i (genWord p i).toNat (lenOf p i))).flatMap sumDigits := by
  have hb := lenOf_bounds p i
  rw [genSums_eq _ _ _ h hb.2, codeDigits_eq _ hv _ _ hb.2]

end Sys2Proof.Machine
end

