-- ==== Sys2Proof/Laws/Inv.lean ====
section
/-! SUPPORT. The invariant by its parts, and that accepted writes and completions keep them. -/

namespace Sys2Proof.Machine

/-- The part of the invariant about the input registers. -/
def inpOk (i : Inputs) : Prop :=
  i.loaded &&& ~~~0x000000FF#32 = 0 ∧ i.flags &&& ~~~0x0000FFFF#32 = 0 ∧ i.serial1 &&& ~~~0xFFFF0000#32 = 0
    ∧ i.time0 &&& ~~~0x0000FFFF#32 = 0 ∧ i.opnd &&& ~~~0x000000FF#32 = 0 ∧ unloadedZero i = true

/-- The part of the invariant about the result registers. -/
def outOk (o : Results) : Prop :=
  o.result &&& ~~~0x000000FF#32 = 0 ∧ o.offset &&& ~~~0x0000000F#32 = 0 ∧ resultsOk o = true

theorem reservedZero_iff (r : Reg) (s : State) : reservedZero r s = true ↔ held r s &&& ~~~(fieldMask r) = 0 := by simp [reservedZero]

/-- Each check of the invariant as a proposition. -/
theorem unloadedZero_iff (i : Inputs) : unloadedZero i = true ↔
    (i.loaded.getLsbD 0 = true ∨ i.seed.w0 = 0) ∧ (i.loaded.getLsbD 1 = true ∨ i.seed.w1 = 0) ∧ (i.loaded.getLsbD 2 = true ∨ i.seed.w2 = 0)
    ∧ (i.loaded.getLsbD 3 = true ∨ i.seed.w3 = 0) ∧ (i.loaded.getLsbD 4 = true ∨ i.serial0 = 0) ∧ (i.loaded.getLsbD 5 = true ∨ i.serial1 = 0)
    ∧ (i.loaded.getLsbD 6 = true ∨ i.time0 = 0) ∧ (i.loaded.getLsbD 7 = true ∨ i.time1 = 0) := by
  simp only [unloadedZero, Bool.and_eq_true, Bool.or_eq_true, decide_eq_true_eq, and_assoc]

theorem seqOk_iff (s : State) : seqOk s = true ↔ ∀ c n, s.seq = .busy c n → c ≠ 0 ∧ (1 ≤ n ∧ n ≤ latency s.params.lat c) ∧ s.status.lastCmd = c
    ∧ s.status.done = false ∧ s.status.err = false := by
  unfold seqOk
  cases hq : s.seq with
  | idle => simp
  | busy c n =>
    simp only [Bool.and_eq_true, decide_eq_true_eq, Bool.not_eq_true', and_assoc]
    constructor
    · intro h c' n' e; cases e; exact h
    · intro h; exact h c n rfl

theorem errOk_iff (t : Status) : errOk t = true ↔ (t.err = true ↔ t.errCode ≠ .noError) ∧ t.errCode ≠ .cipher := by
  simp only [errOk, Bool.and_eq_true, decide_eq_true_eq]
  cases t.err <;> simp

/-- The invariant by its parts. -/
theorem inv_iff (s : State) : inv s = true ↔ s.params.wf = true ∧ inpOk s.inp ∧ outOk s.out ∧ seqOk s = true ∧ errOk s.status = true := by
  simp only [inv, maskedRegs, List.all_cons, List.all_nil, Bool.and_eq_true, Bool.and_true, inpOk, outOk, reservedZero_iff]
  simp only [held, fieldMask]
  tauto

/-- R900. -/
theorem inpOk_reset : inpOk Inputs.reset := by unfold inpOk; decide

theorem outOk_reset : outOk Results.reset := by unfold outOk; decide

theorem and_not_mask (v m : Word) : (v &&& m) &&& ~~~m = 0 := by
  apply BitVec.eq_of_getLsbD_eq; intro i hi; simp [hi]

theorem or_and_not (a b m : Word) (h : a &&& ~~~m = 0) (h' : b &&& ~~~m = 0) : (a ||| b) &&& ~~~m = 0 := by
  rw [BitVec.and_comm, BitVec.and_or_distrib_left, BitVec.and_comm _ a, BitVec.and_comm _ b, h, h']; rfl

/-- R209: an accepted write keeps the input registers well formed. -/
theorem inpOk_store (r : Reg) (v : Word) (i : Inputs) (h : inpOk i) : inpOk (storeInput r v i) := by
  obtain ⟨h1, h2, h3, h4, h5, h6⟩ := h
  have key : ∀ (b : Nat), b < 8 → (i.loaded ||| 1#32 <<< b) &&& ~~~0x000000FF#32 = 0 := by
    intro b hb
    apply or_and_not _ _ _ h1
    interval_cases b <;> decide
  rw [unloadedZero_iff] at h6
  have h6' := (unloadedZero_iff i).2 h6
  obtain ⟨a0, a1, a2, a3, a4, a5, a6, a7⟩ := h6
  have ld : ∀ (b k : Nat) (q : Prop), (i.loaded.getLsbD k = true ∨ q) → ((i.loaded ||| 1#32 <<< b).getLsbD k = true ∨ q) := by
    intro b k q h
    rw [BitVec.getLsbD_or, Bool.or_eq_true]; tauto
  have me : ∀ b < 8, (i.loaded ||| 1#32 <<< b).getLsbD b = true := by
    intro b hb
    rw [BitVec.getLsbD_or, Bool.or_eq_true]; right
    interval_cases b <;> decide
  cases r with
  | seed w =>
    refine ⟨key _ (by omega), h2, h3, h4, h5, ?_⟩
    rw [unloadedZero_iff]
    fin_cases w
    · exact ⟨.inl (me 0 (by decide)), ld _ _ _ a1, ld _ _ _ a2, ld _ _ _ a3, ld _ _ _ a4, ld _ _ _ a5, ld _ _ _ a6, ld _ _ _ a7⟩
    · exact ⟨ld _ _ _ a0, .inl (me 1 (by decide)), ld _ _ _ a2, ld _ _ _ a3, ld _ _ _ a4, ld _ _ _ a5, ld _ _ _ a6, ld _ _ _ a7⟩
    · exact ⟨ld _ _ _ a0, ld _ _ _ a1, .inl (me 2 (by decide)), ld _ _ _ a3, ld _ _ _ a4, ld _ _ _ a5, ld _ _ _ a6, ld _ _ _ a7⟩
    · exact ⟨ld _ _ _ a0, ld _ _ _ a1, ld _ _ _ a2, .inl (me 3 (by decide)), ld _ _ _ a4, ld _ _ _ a5, ld _ _ _ a6, ld _ _ _ a7⟩
  | serial0 =>
    refine ⟨key _ (by omega), h2, h3, h4, h5, ?_⟩; rw [unloadedZero_iff]
    exact ⟨ld _ _ _ a0, ld _ _ _ a1, ld _ _ _ a2, ld _ _ _ a3, .inl (me 4 (by decide)), ld _ _ _ a5, ld _ _ _ a6, ld _ _ _ a7⟩
  | serial1 =>
    refine ⟨key _ (by omega), h2, and_not_mask _ _, h4, h5, ?_⟩; rw [unloadedZero_iff]
    exact ⟨ld _ _ _ a0, ld _ _ _ a1, ld _ _ _ a2, ld _ _ _ a3, ld _ _ _ a4, .inl (me 5 (by decide)), ld _ _ _ a6, ld _ _ _ a7⟩
  | time0 =>
    refine ⟨key _ (by omega), h2, h3, and_not_mask _ _, h5, ?_⟩; rw [unloadedZero_iff]
    exact ⟨ld _ _ _ a0, ld _ _ _ a1, ld _ _ _ a2, ld _ _ _ a3, ld _ _ _ a4, ld _ _ _ a5, .inl (me 6 (by decide)), ld _ _ _ a7⟩
  | time1 =>
    refine ⟨key _ (by omega), h2, h3, h4, h5, ?_⟩; rw [unloadedZero_iff]
    exact ⟨ld _ _ _ a0, ld _ _ _ a1, ld _ _ _ a2, ld _ _ _ a3, ld _ _ _ a4, ld _ _ _ a5, ld _ _ _ a6, .inl (me 7 (by decide))⟩
  | flags => exact ⟨h1, and_not_mask _ _, h3, h4, h5, h6'⟩
  | opnd => exact ⟨h1, h2, h3, h4, and_not_mask _ _, h6'⟩
  | _ => exact ⟨h1, h2, h3, h4, h5, h6'⟩

theorem low_mask (n : Nat) (h : n < 256) : BitVec.ofNat 32 n &&& ~~~0x000000FF#32 = 0 := by
  have : ∀ n : Fin 256, BitVec.ofNat 32 n &&& ~~~0x000000FF#32 = 0 := by decide +kernel
  exact this ⟨n, h⟩

/-- R115. -/
theorem offset_ok (p : Params) (i : Inputs) : offsetOf (minute i) (cad60 p i) ∈ [0, 4, 8, 12] := by
  have : ∀ (m : Byte) (c : Bool), offsetOf m c ∈ [0, 4, 8, 12] := by decide +kernel
  exact this _ _

theorem off_mask (n : Nat) (h : n ∈ [0, 4, 8, 12]) : BitVec.ofNat 32 n &&& ~~~0x0000000F#32 = 0 ∧ (BitVec.ofNat 32 n = 0 ∨ BitVec.ofNat 32 n = 4 ∨ BitVec.ofNat 32 n = 8 ∨ BitVec.ofNat 32 n = 12) := by
  simp at h; rcases h with rfl | rfl | rfl | rfl <;> decide

/-- R704: every completion keeps the result registers well formed. -/
theorem outOk_rule (i : Instr) (s : State) (hc : i.code ≠ 0) (h : outOk s.out) : outOk (ruleOf i s).out := by
  obtain ⟨h1, h2, h3⟩ := h
  cases i with
  | noCmd ie => exact absurd rfl hc
  | gen ie =>
    by_cases hv : validGen s.inp
    · have e : (ruleOf (.gen ie) s).out = genResults s.params s.inp s.out := by
        simp only [ruleOf, genRule, genCheck_of_valid _ hv]; rfl
      rw [e]
      refine ⟨h1, (off_mask _ (offset_ok _ _)).1, ?_⟩
      simp only [resultsOk, Bool.and_eq_true, decide_eq_true_eq]
      refine ⟨(off_mask _ (offset_ok _ _)).2, ?_⟩
      cases hu : underflows (genWord s.params s.inp) (genLen s.params s.inp) with
      | false =>
        show (BitVec.ofNat 5 (codeDigits (genSums (genWord s.params s.inp) (genLen s.params s.inp)
          (pinDigits s.inp))).length).toNat ≤ 16
        rw [genLen_eq] at hu ⊢
        have hl := lenOf_bounds s.params s.inp
        have hf := List.length_filter_le
          (fun i => decide (10 ≤ sumAt s.inp (genWord s.params s.inp).toNat (lenOf s.params s.inp) i))
          (List.range (lenOf s.params s.inp))
        rw [codeDigits_genSums _ _ hv.2.2.1 hu, flatMap_sumDigits_length, BitVec.toNat_ofNat]
        simp only [List.length_range] at hf ⊢
        omega
      | true => simp [genResults, genWrites, genSums, hu, codeDigits]
    · have hc : genCheck s.inp ≠ .noError := mt (genCheck_noError _).1 hv
      have e : (ruleOf (.gen ie) s).out = s.out := by
        cases h : genCheck s.inp <;> first | exact absurd h hc | (simp only [ruleOf, genRule, h]; rfl)
      rw [e]; exact ⟨h1, h2, h3⟩
  | time ie =>
    simp only [ruleOf, timeRule]
    split
    · refine ⟨h1, (off_mask _ (offset_ok _ _)).1, ?_⟩
      simp only [resultsOk, Bool.and_eq_true, decide_eq_true_eq] at h3 ⊢
      exact ⟨(off_mask _ (offset_ok _ _)).2, h3.2⟩
    · exact ⟨h1, h2, h3⟩
  | bcdenc ie =>
    simp only [ruleOf, bcdencRule]
    split
    · exact ⟨h1, h2, h3⟩
    · refine ⟨?_, h2, h3⟩
      show (bcd _).setWidth 32 &&& _ = 0
      rw [← BitVec.ofNat_toNat]; exact low_mask _ (bcd _).isLt
  | bcddec ie =>
    simp only [ruleOf, bcddecRule]
    split
    · rename_i hv
      refine ⟨low_mask _ ?_, h2, h3⟩
      have := (bcdValid_iff _).1 hv
      simp only [unbcd, highNibble_toNat, lowNibble_toNat]; omega
    · exact ⟨h1, h2, h3⟩
  | aesenc ie =>
    simp only [ruleOf, aesencRule]
    split
    · exact ⟨h1, h2, h3⟩
    · exact ⟨h1, h2, h3⟩
  | zeroize ie => exact outOk_reset
  | rsvd7 ie => exact ⟨h1, h2, h3⟩
  | rsvdHigh l ie => exact ⟨h1, h2, h3⟩

end Sys2Proof.Machine
end

