-- ==== Sys2Proof/Laws/PerInstr.lean ====
section
/-! SUPPORT. One lemma per constructor of `Instr`: the encoding of a command word carries its CMD and IE and nothing else (R300, R302). -/

namespace Sys2Proof.Laws.EncodeFields

open Sys2Proof Sys2Proof.Machine

/-- CMD and IE stand in their fields, and every reserved bit is 0 (R300). -/
def Statement (i : Instr) : Prop :=
  cmdField (encode i) = i.code ∧ ieField (encode i) = i.ie ∧ encode i &&& ~~~0x0000010F#32 = 0

theorem reserved (i : Instr) : encode i &&& ~~~0x0000010F#32 = 0 := by
  have h : ∀ (c : BitVec 4) (b : Bool),
      ((if b then 0x100#32 else 0#32) ||| c.setWidth 32) &&& ~~~0x0000010F#32 = 0 := by decide
  exact h i.code i.ie

theorem noCmd (ie : Bool) : Statement (.noCmd ie) := ⟨cmdField_encode _, ieField_encode _, reserved _⟩
theorem gen (ie : Bool) : Statement (.gen ie) := ⟨cmdField_encode _, ieField_encode _, reserved _⟩
theorem time (ie : Bool) : Statement (.time ie) := ⟨cmdField_encode _, ieField_encode _, reserved _⟩
theorem bcdenc (ie : Bool) : Statement (.bcdenc ie) := ⟨cmdField_encode _, ieField_encode _, reserved _⟩
theorem bcddec (ie : Bool) : Statement (.bcddec ie) := ⟨cmdField_encode _, ieField_encode _, reserved _⟩
theorem aesenc (ie : Bool) : Statement (.aesenc ie) := ⟨cmdField_encode _, ieField_encode _, reserved _⟩
theorem zeroize (ie : Bool) : Statement (.zeroize ie) := ⟨cmdField_encode _, ieField_encode _, reserved _⟩
theorem rsvd7 (ie : Bool) : Statement (.rsvd7 ie) := ⟨cmdField_encode _, ieField_encode _, reserved _⟩
theorem rsvdHigh (low : BitVec 3) (ie : Bool) : Statement (.rsvdHigh low ie) :=
  ⟨cmdField_encode _, ieField_encode _, reserved _⟩

end Sys2Proof.Laws.EncodeFields
end

