-- ==== Sys2Proof/Laws/Registers.lean ====
section
/-! SUPPORT. The registers as the statements write them: the words of CTRL, STATUS and DIGITS as arithmetic, the words of a block group, what a store leaves in its register, what a read returns, and the round keys by their words. -/

namespace Sys2Proof.Machine

/-- Bits put after a word: its number moves up by their width. -/
theorem toNat_append_add {m n : Nat} (x : BitVec m) (y : BitVec n) : (x ++ y).toNat = x.toNat * 2 ^ n + y.toNat := by
  rw [BitVec.toNat_append, ← Nat.shiftLeft_add_eq_or_of_lt y.isLt, Nat.shiftLeft_eq]

/-- R102. -/
theorem ctrlWord_eq (s : State) : ctrlWord s = if s.ie then 0x00000100 else 0 := by
  cases h : s.ie <;> simp [ctrlWord, h]

/-- R103. -/
theorem statusWord_eq_sum (s : State) : statusWord s = statusSum s := by
  have hb : (BitVec.ofBool (isBusy s)).toNat = if s.seq = .idle then 0 else 1 := by cases hq : s.seq <;> simp [isBusy, hq]
  have h1 := s.status.lastCmd.isLt
  have h2 := (errBits s.status.errCode).isLt
  apply BitVec.eq_of_toNat_eq
  simp only [statusWord, statusSum, toNat_append_add, hb, BitVec.toNat_ofNat]
  cases s.status.done <;> cases s.status.err <;> cases s.status.haz <;> simp only [BitVec.ofBool] <;> split <;> simp <;>
    omega

/-- R117. -/
theorem digitsWord_eq_sum (d : Digits) : digitsWord d = digitsSum d := by
  have h1 := d.ndig.isLt
  have h2 := d.len.isLt
  have h3 := d.charLen.isLt
  apply BitVec.eq_of_toNat_eq
  simp only [digitsWord, digitsSum, toNat_append_add, BitVec.toNat_ofNat]
  omega

/-- The rows of a block group are its four words (R101). -/
theorem mem_blockRows {base : Nat} {reg : Fin 4 → Reg} {b : Block} {row : RegRow} :
    row ∈ blockRows base reg b ↔ ∃ w : Fin 4, row = ⟨base + 4 * w, reg w, getWord b w, 0xFFFFFFFF⟩ := by
  simp only [blockRows, List.mem_cons, List.not_mem_nil, or_false, Fin.exists_fin_succ]
  simp [getWord]

/-- A store is held by its register with the reserved bits 0 (R209). -/
theorem held_storeReg (r : Reg) (v : Word) (s : State) (hw : writable r = true) (hc : r ≠ .ctrl) (hs : r ≠ .status) :
    held r (storeReg r v s) = v &&& fieldMask r := by
  cases r with
  | seed w => fin_cases w <;> rfl
  | auxBlk w => fin_cases w <;> rfl
  | _ => first | exact absurd rfl hc | exact absurd rfl hs | rfl | cases hw

/-- What a register reads does not depend on the host (R210). -/
theorem readReg_hostNext {s u : State} {op : BusOp} (h : hostNext s = some (op, u)) (r : Reg) :
    readReg r u = readReg r s := by
  cases r <;> simp [readReg, held_hostNext h]

/-- The words `W[4k .. 4k+4)` are round key `k` (R506, R507). -/
theorem keyGroup_keyWords (key : Block) (k : Fin 11) : keyGroup (keyWords key) k = (key :: roundKeys key).getD k key := by
  fin_cases k <;> rfl

end Sys2Proof.Machine
end

