-- ==== Sys2Proof/Tests/Slice0.lean ====
section
/-! SUPPORT. The model's own tests: expected values from 95_test_vectors.md or worked out by hand from a rule, and for each statement with hypotheses a state and operands that meet them. -/

namespace Sys2Proof.Tests

open Sys2Proof Sys2Proof.Machine

set_option Elab.async false

/-! ### Small states -/

/-- Reset, with a command in flight that has one cycle left. -/
def inFlight (c : BitVec 4) (inp : Inputs) : State := { State.reset with inp := inp, seq := .busy c 1 }

/-- Reset, with one host operation to perform. -/
def hostDoes (op : BusOp) : State := { State.reset with pending := [op] }

/-- Reset, with a GEN in flight and one host operation to perform first. -/
def hostDoesBusy (op : BusOp) : State := { State.reset with seq := .busy 1 5, pending := [op], turns := [.host] }

/-- The inputs of scenario A (section 3.4 of 95_test_vectors.md), with the given FLAGS and TIME1. -/
def scenA (flags time1 : Word) : Inputs :=
  { Inputs.reset with loaded := 0xFF, flags := flags, time0 := 0x000007E8, time1 := time1 }

/-- The inputs of scenario B (section 3.6 of 95_test_vectors.md). -/
def scenB : Inputs :=
  { loaded := 0xFF, flags := 0x000043FB, pin := 0x12340000, serial0 := 0x12345678, serial1 := 0x90120000,
    time0 := 0x000007E9, time1 := 0x07040D07, opnd := 0,
    seed := { w0 := 0x00112233, w1 := 0x44556677, w2 := 0x8899AABB, w3 := 0xCCDDEEFF }, auxBlk := zeroBlock }

/-- A value of the state after an instruction. -/
def after {α : Type} (i : Instr) (s : State) (f : State → α) : Option α :=
  match exec i s with
  | .next t => some (f t)
  | .fault _ => none
  | .refused _ => none

/-- A value of the state after a step. -/
def stepped {α : Type} (s : State) (f : State → α) : Option α :=
  match step s with
  | .next t => some (f t)
  | .fault _ => none
  | .refused _ => none

/-- The fault of a step, if it stops with one. -/
def faultOf (s : State) : Option Fault :=
  match step s with
  | .next _ => none
  | .fault f => some f
  | .refused _ => none

/-- The refusal of a step, if it stops with one. -/
def refusalOf (s : State) : Option Refusal :=
  match step s with
  | .next _ => none
  | .fault _ => none
  | .refused r => some r

/-! ### Well-formedness: what each check refuses -/

theorem test_wf_reference : Params.reference.wf = true := by decide
theorem test_wf_digitFieldFits : digitFieldFits { Params.reference with digitShift := 14 } = false := by decide
theorem test_wf_intervalFieldFits : intervalFieldFits { Params.reference with intervalShift := 15 } = false := by decide
theorem test_wf_fieldsDisjoint : fieldsDisjoint { Params.reference with intervalShift := 3 } = false := by decide
theorem test_wf_baseAligned : baseAligned { Params.reference with base := 0x80 } = false := by decide
theorem test_wf_latenciesPositive : latenciesPositive { Latencies.least with gen := 0 } = false := by decide
theorem test_wf_params : Params.wf { Params.reference with digitShift := 14 } = false := by decide
theorem test_wf_access_width : accessWf Params.reference 0x004 2 = false := by decide
theorem test_wf_access_aligned : accessWf Params.reference 0x011 4 = false := by decide
theorem test_wf_access_inside : accessWf Params.reference 0x100 4 = false := by decide
theorem test_wf_op : opWf Params.reference (.write 0x101 4 0) = false
    ∧ opWf Params.reference (.read 0x000 1 none) = false ∧ opWf Params.reference (.poll 0x200 0 0) = false
    ∧ opWf Params.reference (.write 0x000 4 0) = true ∧ opWf Params.reference .wfi = true
    ∧ opWf Params.reference .reset = true := by decide

/-! ### Decoding, words written out from R300 and R301: bits [31:9], IE, bits [7:4], CMD -/

theorem test_decode_noCmd : decode (0#23 ++ 1#1 ++ 0#4 ++ 0b0000#4) = .noCmd true := by decide
theorem test_decode_gen : decode (0#23 ++ 0#1 ++ 0#4 ++ 0b0001#4) = .gen false := by decide
theorem test_decode_time : decode (0#23 ++ 1#1 ++ 0#4 ++ 0b0010#4) = .time true := by decide
theorem test_decode_bcdenc : decode (0#23 ++ 0#1 ++ 0#4 ++ 0b0011#4) = .bcdenc false := by decide
theorem test_decode_bcddec : decode (0#23 ++ 1#1 ++ 0#4 ++ 0b0100#4) = .bcddec true := by decide
/-- S15: reserved bits are ignored. -/
theorem test_decode_aesenc : decode (0#23 ++ 1#1 ++ 0b1111#4 ++ 0b0101#4) = .aesenc true := by decide
theorem test_decode_zeroize : decode (0x7FFFFF#23 ++ 0#1 ++ 0#4 ++ 0b0110#4) = .zeroize false := by decide
theorem test_decode_rsvd7 : decode (0#23 ++ 0#1 ++ 0#4 ++ 0b0111#4) = .rsvd7 false := by decide
theorem test_decode_rsvdHigh : decode (0#23 ++ 0#1 ++ 0#4 ++ 0b1001#4) = .rsvdHigh 0b001#3 false := by decide
theorem test_decodeTableWord : decodeTableWord 16 0x0103 = some (.bcdenc true) ∧ decodeTableWord 40 0x03 = none := by
  decide

/-! ### Instructions -/

/-- S14. -/
theorem test_noCmd : after (.noCmd true) { State.reset with status := { Status.reset with done := true, lastCmd := 1 } }
    (fun t => (ctrlWord t, statusWord t, irq t)) = some (0x00000100, 0x00000102, true) := by decide

/-- S2. -/
theorem test_gen_accepted : after (.gen false) State.reset (fun t => statusWord t) = some 0x00000101 := by decide

/-- Section 3.4: WORD, DIGITS, CODE and STATUS of scenario A. -/
theorem test_gen_codeA : after (.gen false) { inFlight 1 (scenA 0x43D9 0x01010000) with
      status := { Status.reset with lastCmd := 1 } }
    (fun t => (t.out.word, digitsWord t.out.digits, t.out.codeChar.w0, t.out.codeChar.w1, statusWord t))
    = some (0x6AD00067, 0x0000066A, 0x30313634, 0x38370000, 0x00000102) := by decide +kernel

/-- Section 2.1. -/
theorem test_bcdenc_99 : after (.bcdenc false) (inFlight 3 { Inputs.reset with opnd := 99 }) (fun t => t.out.result)
    = some 0x99 := by decide
theorem test_bcdenc_100 : after (.bcdenc false) (inFlight 3 { Inputs.reset with opnd := 100 })
    (fun t => (t.out.result, t.status.errCode)) = some (0, .bcdDom) := by decide
theorem test_bcddec_42 : after (.bcddec false) (inFlight 4 { Inputs.reset with opnd := 0x42 }) (fun t => t.out.result)
    = some 42 := by decide
theorem test_bcddec_5A : after (.bcddec false) (inFlight 4 { Inputs.reset with opnd := 0x5A })
    (fun t => (t.out.result, t.status.errCode)) = some (0, .bcdDig) := by decide

/-- Section 2.3: 2024-03-15 13:07 in 30-second cadence. -/
theorem test_time_2024 : after (.time false) (inFlight 2 (scenA 0x43D9 0x030F0D07))
    (fun t => (t.out.bcdTime0, t.out.bcdTime1, t.out.offset)) = some (0x24200315, 0x13060000, 8) := by decide
/-- Section 2.3: month 13. -/
theorem test_time_month13 : after (.time false) (inFlight 2 (scenA 0x43D9 0x0D010000))
    (fun t => (t.out.bcdTime0, errBits t.status.errCode)) = some (0, 5) := by decide

/-- Section 3.3, FIPS-197 C.1. -/
theorem test_aesenc_c1 : after (.aesenc false) (inFlight 5 { Inputs.reset with
      loaded := 0x0F
      seed := { w0 := 0x00010203, w1 := 0x04050607, w2 := 0x08090A0B, w3 := 0x0C0D0E0F }
      auxBlk := { w0 := 0x00112233, w1 := 0x44556677, w2 := 0x8899AABB, w3 := 0xCCDDEEFF } }) (fun t => t.out.auxOut)
    = some { w0 := 0x69C4E0D8, w1 := 0x6A7B0430, w2 := 0xD8CDB780, w3 := 0x70B4C55A } := by decide +kernel
/-- Section 2.10: no SEED word loaded. -/
theorem test_aesenc_noSeed : after (.aesenc false) (inFlight 5 Inputs.reset) (fun t => errBits t.status.errCode)
    = some 3 := by decide

/-- Section 2.10: CTRL.IE and HAZ keep their values. -/
theorem test_zeroize : after (.zeroize false) { inFlight 6 scenB with
      ie := true
      status := { Status.reset with haz := true, lastCmd := 6 } }
    (fun t => (t.inp, t.ie, statusWord t)) = some (Inputs.reset, true, 0x0000060A) := by decide

theorem test_rsvd7 : after (.rsvd7 false) { inFlight 7 scenB with status := { Status.reset with lastCmd := 7 } }
    (fun t => (t.inp, statusWord t)) = some (scenB, 0x00000716) := by decide
/-- S9. -/
theorem test_rsvdHigh : after (.rsvdHigh 1 false) { inFlight 9 scenB with status := { Status.reset with lastCmd := 9 } }
    (fun t => (t.inp, statusWord t)) = some (scenB, 0x00000916) := by decide

/-! ### AES parts (sections 3.1 and 3.2) -/

theorem test_gmul : gmul 0x57 0x83 = 0xC1 ∧ gmul 0x57 0x13 = 0xFE ∧ gmul 0x53 0xCA = 0x01 := by decide
theorem test_sbox : [0x00, 0x53, 0x7F, 0x80, 0xFF].map sbox = [0x63, 0xED, 0xD2, 0xCD, 0x16] := by decide +kernel
theorem test_mixWord : mixWord 0xDB135345 = 0x8E4DA1BC := by decide

/-! ### Digits (section 2.7) -/

/-- E6. -/
theorem test_extract_E6 : codeDigits (pinSums (selectDigits 4294967295 8) [9, 9, 9, 9, 9, 9, 9, 9])
    = [1, 8, 1, 3, 1, 8, 1, 5, 1, 6, 1, 1, 1, 8, 1, 4] := by decide +kernel
/-- E2. -/
theorem test_extract_E2 : underflows 0 2 = true ∧ underflows 0 1 = false := by decide

/-! ### The bus (section 2.9) and the sequencer (section 2.8) -/

/-- M1, M2. -/
theorem test_bus_unmapped : faultOf (hostDoes (.read 0x02C 4 none)) = some (.busError 0x02C)
    ∧ faultOf (hostDoes (.write 0x07C 4 1)) = some (.busError 0x07C) := by decide +kernel
/-- M5, also while Busy. -/
theorem test_bus_readOnly : faultOf (hostDoes (.write 0x090 4 0)) = some (.busError 0x090)
    ∧ faultOf (hostDoesBusy (.write 0x090 4 0)) = some (.busError 0x090) := by decide +kernel
/-- M6, M7. -/
theorem test_bus_odd : faultOf (hostDoes (.read 0x004 2 none)) = some (.busError 0x004)
    ∧ faultOf (hostDoes (.write 0x011 4 0)) = some (.busError 0x011) := by decide +kernel
/-- R212. -/
theorem test_bus_outside : refusalOf (hostDoes (.read 0x100 4 none)) = some (.outsideWindow 0x100) := by decide +kernel
/-- M8. -/
theorem test_bus_seed : stepped (hostDoes (.write 0x030 4 0x11223344))
    (fun t => (t.inp.seed.w0, readReg (.seed 0) t, t.inp.loaded)) = some (0x11223344, 0, 1) := by decide +kernel
/-- M9. -/
theorem test_bus_serial1 : stepped (hostDoes (.write 0x018 4 0x9012FFFF)) (fun t => readReg .serial1 t)
    = some 0x90120000 := by decide +kernel
/-- S16. -/
theorem test_bus_hazard : stepped (hostDoesBusy (.write 0x00C 4 0x43E9)) (fun t => (t.inp, t.status.haz))
    = some (Inputs.reset, true) := by decide +kernel
/-- S11, S12, S13. -/
theorem test_bus_statusClear : [0xFFFFFFFF#32, 2, 4].map (fun v => stepped { hostDoes (.write 0x004 4 v) with
      status := { done := true, err := true, haz := false, errCode := .bcdDom, lastCmd := 3 } } (fun t => statusWord t))
    = [some 0x00000300, some 0x00000374, some 0x00000302] := by decide +kernel
/-- R900, section 2.10: a reset while GEN is Busy. -/
theorem test_reset_busy : stepped (hostDoesBusy .reset) (fun t => { t with turns := [] }) = some State.reset := by
  decide +kernel
/-- R310, R814: WFI waits for `irq`. -/
theorem test_wfi : stepped (hostDoes .wfi) (fun t => t.pending) = some [.wfi] := by decide
/-- The fetch: the word placed is what the next step runs. -/
theorem test_withFetchWord : stepped (State.reset.withFetchWord 32 0x00000105) (fun t => (t.seq, t.ie))
    = some (.busy 5 1, true) := by decide +kernel

/-! ### Safety -/

/-- R904: the write of S16 is at fault; the same write while Idle is not. -/
theorem test_safety : safeStep (hostDoesBusy (.write 0x00C 4 0x43E9)) = false
    ∧ safeStep (hostDoes (.write 0x00C 4 0x43E9)) = true ∧ safeStep (hostDoes (.read 0x02C 4 none)) = false
    ∧ safeRun 2 (hostDoes (.write 0x00C 4 0x43E9)) = true := by decide +kernel

/-- R311, with the encodings of programs P1 and P2. -/
theorem test_pseudo : cmdOp 0 (.aesenc true) = .write 0x000 4 0x00000105 ∧ waitOp 0 = .poll 0x004 0x3 0x2
    ∧ clrOp 0 = .write 0x004 4 0x0000000E ∧ read16 0 0x050 = [0x050, 0x054, 0x058, 0x05C].map (fun a => .read a 4 none)
    ∧ load16 0 0x030 [0, 1, 2, 3, 4, 5, 6, 7, 8, 9, 10, 11, 12, 13, 14, 15] = [.write 0x030 4 0x00010203,
      .write 0x034 4 0x04050607, .write 0x038 4 0x08090A0B, .write 0x03C 4 0x0C0D0E0F] := by decide
/-- R905, R310, R710. -/
theorem test_program : earlyRead (hostDoesBusy (.read 0x028 4 none)) = true
    ∧ earlyRead (hostDoesBusy (.read 0x004 4 none)) = false
    ∧ stepped (hostDoes (.read 0x00C 4 (some 17369))) (fun t => (expectationsMet t, programEnded t)) = some (true, true)
    ∧ stepped (hostDoes (.read 0x00C 4 (some 0))) (fun t => expectationsMet t) = some false := by decide +kernel

/-! ### What meets the hypotheses of the statements -/

theorem test_met_CommandAccepted : State.reset.seq = .idle ∧ (Instr.gen true).code ≠ 0
    ∧ (Instr.rsvdHigh 7 false).code ≠ 0 := by decide
theorem test_met_CmdZeroOnlySetsIe : (0x000001F0#32).toNat % 16 = 0 ∧ State.reset.seq = .idle
    ∧ (hostDoes (.write 0 4 0x1F0)).seq = .idle
    ∧ hostNext (hostDoes (.write 0 4 0x1F0)) = some (.write State.reset.params.base 4 0x1F0, State.reset) := by decide
theorem test_met_CommandWhileBusyDropped : (inFlight 1 scenB).seq = .busy 1 1 ∧ (Instr.bcdenc true).code ≠ 1 := by decide
theorem test_met_BcdencResult : (0x00000103#32).toNat % 16 = 3 ∧ (inFlight 3 scenB).seq = .busy 3 1
    ∧ ¬ (99#32).toNat % 256 > 99 ∧ (100#32).toNat % 256 > 99 := by decide
theorem test_met_BcddecResult : (0x00000004#32).toNat % 16 = 4 ∧ (inFlight 4 scenB).seq = .busy 4 1
    ∧ ((0x99#32).toNat / 16 % 16 ≤ 9 ∧ (0x99#32).toNat % 16 ≤ 9)
    ∧ ¬ ((0x9A#32).toNat / 16 % 16 ≤ 9 ∧ (0x9A#32).toNat % 16 ≤ 9) := by decide
theorem test_met_BcdRoundTripThroughRegisters :
    (inFlight 3 { Inputs.reset with opnd := 99 }).seq = .busy 3 1 ∧ (99#32).toNat ≤ 99
      ∧ (inFlight 4 { Inputs.reset with opnd := 0x99 }).seq = .busy 4 1
      ∧ after (.bcdenc true) (inFlight 3 { Inputs.reset with opnd := 99 }) (fun t => t.out.result) = some 0x99 := by
  decide
/-- 23:59 on 31 December 9999 is valid; year 10000, day 0, hour 24 and minute 60 are not. -/
theorem test_met_TimeResult : (0x00000002#32).toNat % 16 = 2 ∧ (inFlight 2 scenB).seq = .busy 2 1
    ∧ validTime { scenA 0x43D9 0x0C1F173B with time0 := 9999 } ∧ ¬ validTime { scenA 0x43D9 0x0C1F173B with time0 := 10000 }
    ∧ ¬ validTime (scenA 0x43D9 0x0C00173B) ∧ ¬ validTime (scenA 0x43D9 0x0C1F183B)
    ∧ ¬ validTime (scenA 0x43D9 0x0C1F173C) ∧ ¬ validTime { scenA 0x43D9 0x0C1F173B with loaded := 0x7F } := by decide
theorem test_met_AesencResult : (0x00000005#32).toNat % 16 = 5 ∧ (inFlight 5 scenB).seq = .busy 5 1
    ∧ scenB.loaded.toNat % 16 = 15 ∧ ¬ (0xF7#32).toNat % 16 = 15 := by decide
/-- R507: the last round key of its example. -/
theorem test_keyGroup : keyGroup (keyWords { w0 := 0x00010203, w1 := 0x04050607, w2 := 0x08090A0B, w3 := 0x0C0D0E0F }) 10
    = { w0 := 0x13111D7F, w1 := 0xE3944A17, w2 := 0xF307A78B, w3 := 0x4D2B30C5 } := by decide +kernel
theorem test_met_KeyExpansionWords : keyWords zeroBlock = keyWords zeroBlock ∧ 4 ≤ 43 ∧ 43 < 44 := by
  exact ⟨rfl, by decide, by decide⟩
/-- One input for each check of R707; the digit A is the least that is not decimal. -/
theorem test_met_GenValidationOrder : (0x00000001#32).toNat % 16 = 1 ∧ (inFlight 1 scenB).seq = .busy 1 1
    ∧ ¬ validSerial { scenB with serial1 := 0x901A0000 }
    ∧ (validSerial scenB ∧ ¬ validSeed { scenB with loaded := 0xF7 } ∧ validSerial { scenB with loaded := 0xF7 })
    ∧ (validSeed { scenB with pin := 0xA } ∧ validSerial { scenB with pin := 0xA } ∧ ¬ validPin { scenB with pin := 0xA })
    ∧ (validPin { scenB with time1 := 0x07040D3C } ∧ validSeed { scenB with time1 := 0x07040D3C }
      ∧ validSerial { scenB with time1 := 0x07040D3C } ∧ ¬ validTime { scenB with time1 := 0x07040D3C }) := by decide
/-- Scenario A: LEN 6 and ten digits. With LEN 1 the other case holds (FLAGS 0). -/
theorem test_met_GenCode : (inFlight 1 (scenA 0x43D9 0x01010000)).seq = .busy 1 1
    ∧ validGen (scenA 0x43D9 0x01010000) ∧ lenOf Params.reference (scenA 0x43D9 0x01010000) = 6
    ∧ genWord Params.reference (scenA 0x43D9 0x01010000) = 0x6AD00067
    ∧ 10 ^ (6 - 1) ≤ (0x6AD00067#32).toNat ∧ lenOf Params.reference (scenA 0 0x01010000) = 1 := by decide +kernel
/-- Scenario D: LEN 8 and seven digits; its word with LEN 7 does not underflow. -/
theorem test_met_GenUnderflow : (inFlight 1 (scenA 0x43F9 0x01010700)).seq = .busy 1 1
    ∧ validGen (scenA 0x43F9 0x01010700) ∧ lenOf Params.reference (scenA 0x43F9 0x01010700) = 8
    ∧ genWord Params.reference (scenA 0x43F9 0x01010700) = 0x0036D54B ∧ (0x0036D54B#32).toNat < 10 ^ (8 - 1)
    ∧ lenOf Params.reference (scenA 0x43E9 0x01010700) = 7 ∧ ¬ (0x0036D54B#32).toNat < 10 ^ (7 - 1) := by decide +kernel
theorem test_met_CascadeChainInRegisters : (inFlight 1 scenB).seq = .busy 1 1 ∧ validGen scenB := by decide
theorem test_met_RoundKeyLayout : (inFlight 1 scenB).seq = .busy 1 1 ∧ validGen scenB := by decide
theorem test_met_WordIsK0AtOffset : (inFlight 1 scenB).seq = .busy 1 1 ∧ validGen scenB := by decide
theorem test_met_UnderflowExactly : (inFlight 1 (scenA 0x43F9 0x01010700)).seq = .busy 1 1
    ∧ validGen (scenA 0x43F9 0x01010700) := by decide
/-- Scenario B has the one sum 11, so nine characters. -/
theorem test_met_CharLenCountsLargeSums : (inFlight 1 scenB).seq = .busy 1 1 ∧ validGen scenB
    ∧ after (.gen false) (inFlight 1 scenB) (fun t => (t.status.err, t.out.digits.charLen)) = some (false, 9) := by
  decide +kernel
theorem test_met_NeutralPin : (inFlight 1 (scenA 0x43D9 0x01010000)).seq = .busy 1 1
    ∧ validGen (scenA 0x43D9 0x01010000) ∧ (scenA 0x43D9 0x01010000).pin = 0
    ∧ after (.gen false) (inFlight 1 (scenA 0x43D9 0x01010000)) (fun t => t.status.err) = some false := by decide +kernel
/-- Scenario B and the same with another OPND and AUXBLK. -/
theorem test_met_GenDependsOnInputsOnly :
    let u : State := { inFlight 1 { scenB with opnd := 7, auxBlk := scenB.seed } with ie := true, seq := .busy 1 3 }
    (inFlight 1 scenB).seq = .busy 1 1 ∧ u.seq = .busy 1 3 ∧ (inFlight 1 scenB).params = u.params
      ∧ scenB.loaded = u.inp.loaded ∧ scenB.flags = u.inp.flags ∧ scenB.pin = u.inp.pin
      ∧ scenB.serial0 = u.inp.serial0 ∧ scenB.serial1 = u.inp.serial1 ∧ scenB.time0 = u.inp.time0
      ∧ scenB.time1 = u.inp.time1 ∧ scenB.seed = u.inp.seed ∧ scenB ≠ u.inp ∧ validGen scenB := by decide
theorem test_met_FirstFourSerialDigitsIgnored : (inFlight 1 scenB).seq = .busy 1 1 ∧ validGen scenB
    ∧ validGen { scenB with serial0 := 0x99995678 } ∧ (0x99995678#32).toNat % 2 ^ 16 = scenB.serial0.toNat % 2 ^ 16 := by
  decide
/-- Minutes 4 and 7 in 60-second cadence. -/
theorem test_met_MinuteBucketsShareCascade : validGen scenB ∧ validGen { scenB with time1 := 0x07040D04 }
    ∧ (0x07040D04#32).toNat / 2 ^ 8 = scenB.time1.toNat / 2 ^ 8 ∧ sixtySeconds Params.reference scenB
    ∧ minuteOf { scenB with time1 := 0x07040D04 } / 4 = minuteOf scenB / 4 := by decide
/-- Minutes 58 and 59 in 30-second cadence. -/
theorem test_met_MinuteBucketsShareCascade30 : validGen (scenA 0x43D9 0x0101003B) ∧ validGen (scenA 0x43D9 0x0101003A)
    ∧ ¬ sixtySeconds Params.reference (scenA 0x43D9 0x0101003B)
    ∧ minuteOf (scenA 0x43D9 0x0101003A) / 2 = minuteOf (scenA 0x43D9 0x0101003B) / 2 := by decide
theorem test_met_DecimalRendering : (10 : Nat) ≠ 0 ∧ 1 ∈ dec 10 := by decide
theorem test_met_ZeroizeResult : (0x00000006#32).toNat % 16 = 6 ∧ (inFlight 6 scenB).seq = .busy 6 1
    ∧ Reg.flags ≠ .ctrl ∧ Reg.flags ≠ .status ∧ Reg.pin ≠ .ctrl ∧ Reg.pin ≠ .status := by decide
theorem test_met_ReservedCodesFail : 7 ≤ (0x00000007#32).toNat % 16 ∧ 7 ≤ (0x0000000F#32).toNat % 16
    ∧ (inFlight 7 scenB).seq = .busy 7 1 ∧ (inFlight 15 scenB).seq = .busy (BitVec.ofNat 4 (8 + (7#3).toNat)) 1
    ∧ State.reset.seq = .idle ∧ 7 ≤ (Instr.rsvd7 true).code.toNat ∧ 7 ≤ (Instr.rsvdHigh 7 true).code.toNat := by decide
theorem test_met_StepRunsWrittenCommand : State.reset.seq = .idle
    ∧ (State.reset.withFetchWord 32 3).pending = .write State.reset.params.base 4 3 :: [] := by decide
/-- With one cycle left and with two. -/
theorem test_met_StepRunsCommandInFlight : (inFlight 3 scenB).seq = .busy 3 1
    ∧ engineNext (inFlight 3 scenB) = some (inFlight 3 scenB)
    ∧ engineNext { inFlight 3 scenB with seq := .busy 3 2 } = some { inFlight 3 scenB with seq := .busy 3 2 } := by decide
theorem test_met_IdleStepChangesNothing : State.reset.seq = .idle ∧ hostNext State.reset = none
    ∧ hostNext (hostDoes .wfi) = none := by decide
theorem test_met_CompletesAfterLatency : (inFlight 3 scenB).pending = [] ∧ 1 ≤ 1 ∧ (inFlight 3 scenB).seq = .busy 3 1 := by
  decide
theorem test_met_BusyEndsWithinBound : (hostDoesBusy (.write 0x00C 4 0)).seq = .busy 1 5 ∧ (1#4) ≠ 0 := by decide
theorem test_met_WfiWaitsForIrq : (hostDoes .wfi).seq = .idle ∧ (hostDoes .wfi).pending = .wfi :: []
    ∧ irq { hostDoes .wfi with ie := true, status := { Status.reset with done := true } } = true := by decide
/-- While `Busy`: `irq` low, with five cycles left and with one; `irq` high on the host's turn. -/
theorem test_met_WfiWaitsForIrqBusy : (hostDoesBusy .wfi).pending = .wfi :: [] ∧ (hostDoesBusy .wfi).seq = .busy 1 5
    ∧ ¬ ((hostDoesBusy .wfi).status.done ∧ (hostDoesBusy .wfi).ie)
    ∧ ({ hostDoesBusy .wfi with seq := .busy 7 1 } : State).seq = .busy 7 1
    ∧ irq { hostDoesBusy .wfi with ie := true, status := { Status.reset with done := true } } = true
    ∧ (hostDoesBusy .wfi).turns = .host :: [] := by decide
/-- A register that is dropped, STATUS, a read-only register and an unmapped offset. -/
theorem test_met_BusyWriteDropped : [0x04C, 0x004, 0x050, 0x07C].map (fun off =>
      (hostNext (hostDoesBusy (.write (0 + off) 4 7)), decide (off < 0x100 ∧ off % 4 = 0)))
    = [0x04C, 0x004, 0x050, 0x07C].map (fun off =>
      (some (.write (0 + off) 4 7, { State.reset with seq := .busy 1 5 }), true)) := by decide
theorem test_met_StatusWriteOneToClear :
    hostNext (hostDoes (.write (0 + 4) 4 4)) = some (.write (0 + 4) 4 4, State.reset)
      ∧ hostNext (hostDoesBusy (.write (0 + 4) 4 8)) = some (.write (0 + 4) 4 8, { State.reset with seq := .busy 1 5 }) := by
  decide
/-- A register with no LOADED bit, the first and the last SEED word, and the four SERIAL and TIME words. -/
theorem test_met_InputWriteStores : (hostDoes (.write (0 + 0x030) 4 7)).seq = .idle
    ∧ [⟨0x00C, .flags, 17369, 0x0000FFFF⟩, ⟨0x030, .seed 0, 0, 0xFFFFFFFF⟩, ⟨0x03C, .seed 3, 0, 0xFFFFFFFF⟩,
        ⟨0x014, .serial0, 0, 0xFFFFFFFF⟩, ⟨0x018, .serial1, 0, 0xFFFF0000⟩, ⟨0x01C, .time0, 0, 0x0000FFFF⟩,
        ⟨0x020, .time1, 0, 0xFFFFFFFF⟩, ⟨0x04C, .auxBlk 3, 0, 0xFFFFFFFF⟩].all
      (fun row : RegRow => decide (row ∈ registerRows (hostDoes (.write (0 + 0x030) 4 7)))) = true
    ∧ hostNext (hostDoes (.write (0 + 0x030) 4 7)) = some (.write (0 + 0x030) 4 7, State.reset) := by decide
/-- A byte access at an aligned offset, a word access one below the window's end, each way, and a POLL. -/
theorem test_met_OddAccessesRefused : (0x004 < 0x100 ∧ (1 ≠ 4 ∨ 0x004 % 4 ≠ 0)) ∧ (0x0FF < 0x100 ∧ (4 ≠ 4 ∨ 0x0FF % 4 ≠ 0))
    ∧ hostNext (hostDoes (.write (0 + 0x004) 1 7)) = some (.write (0 + 0x004) 1 7, State.reset)
    ∧ hostNext (hostDoes (.read (0 + 0x0FF) 4 none)) = some (.read (0 + 0x0FF) 4 none, State.reset)
    ∧ hostNext (hostDoes (.poll (0 + 0x005) 3 2)) = some (.poll (0 + 0x005) 3 2, State.reset) := by decide
theorem test_met_UnmappedOffsetsRefused : (0x0FC < 0x100 ∧ 0x0FC % 4 = 0)
    ∧ hostNext (hostDoes (.write (0 + 0x02C) 4 7)) = some (.write (0 + 0x02C) 4 7, State.reset)
    ∧ hostNext (hostDoes (.read (0 + 0x07C) 4 none)) = some (.read (0 + 0x07C) 4 none, State.reset)
    ∧ hostNext (hostDoes (.poll (0 + 0x07C) 3 2)) = some (.poll (0 + 0x07C) 3 2, State.reset) := by decide
theorem test_met_ReadOnlyWritesRefused : [0x008, 0x028, 0x050, 0x0FC].all (fun off => decide (off < 0x100 ∧ off % 4 = 0
      ∧ (off = 0x008 ∨ off = 0x028 ∨ (0x050 ≤ off ∧ off ≠ 0x07C)))) = true
    ∧ hostNext (hostDoes (.write (0 + 0x050) 4 7)) = some (.write (0 + 0x050) 4 7, State.reset) := by decide
/-- The last SEED word and the register after it. -/
theorem test_met_ReadsHaveNoSideEffect : [⟨0x03C, .seed 3, 0, 0xFFFFFFFF⟩, ⟨0x040, .auxBlk 0, 0, 0xFFFFFFFF⟩].all
      (fun row : RegRow => decide (row ∈ registerRows (hostDoes (.read (0 + 0x03C) 4 none)))) = true
    ∧ hostNext (hostDoes (.read (0 + 0x03C) 4 none)) = some (.read (0 + 0x03C) 4 none, State.reset) := by decide
/-- R101: the rows of RK3_1 and RK4_3, and how many there are. -/
theorem test_registerRows : (registerRows State.reset).length = 62
    ∧ (⟨0x0E4, .rk 3 1, 0, 0xFFFFFFFF⟩ : RegRow) ∈ registerRows State.reset
    ∧ (⟨0x0FC, .rk 4 3, 0, 0xFFFFFFFF⟩ : RegRow) ∈ registerRows State.reset := by decide
/-- A POLL whose condition holds at once and one whose condition fails. -/
theorem test_met_PollRepeatsRead :
    (⟨0x004, .status, 0, 0x00000FFF⟩ : RegRow) ∈ registerRows (hostDoes (.poll (0 + 0x004) 3 0))
    ∧ hostNext (hostDoes (.poll (0 + 0x004) 3 0)) = some (.poll (0 + 0x004) 3 0, State.reset)
    ∧ rowRead ⟨0x004, .status, 0, 0x00000FFF⟩ &&& 3 = 0 ∧ ¬ rowRead ⟨0x004, .status, 0, 0x00000FFF⟩ &&& 3 = 2 := by decide
theorem test_met_WaitPollsUntilCompletion : (hostDoesBusy (waitOp 0)).seq = .busy 1 5
    ∧ (hostDoesBusy (waitOp 0)).turns = .host :: []
    ∧ (hostDoesBusy (waitOp 0)).pending = waitOp State.reset.params.base :: [] := by decide
/-- A next state, a fault and a refusal. -/
theorem test_met_SeedNeverReachesHost : (hostNext (hostDoes (.read 0x030 4 none))).isSome = true
    ∧ (stepped (hostDoes (.read 0x030 4 none)) (fun t => t.reads.length)) = some 1
    ∧ (hostNext (hostDoes (.read 0x02C 4 none))).isSome = true
    ∧ faultOf (hostDoes (.read 0x02C 4 none)) = some (.busError 0x02C)
    ∧ (hostNext (hostDoes (.read 0x100 4 none))).isSome = true
    ∧ refusalOf (hostDoes (.read 0x100 4 none)) = some (.outsideWindow 0x100) := by decide +kernel
theorem test_met_ResetOperation : hostNext (hostDoes .reset) = some (.reset, State.reset)
    ∧ hostNext (hostDoesBusy .reset) = some (.reset, { State.reset with seq := .busy 1 5 }) := by decide
theorem test_met_ResetValues : (0x00C, Reg.flags) ∈ regMap ∧ (0x0FC, Reg.rk 4 3) ∈ regMap := by decide
theorem test_met_StepKeepsInv : inv State.reset = true ∧ (step State.reset = .next State.reset) := by
  exact ⟨by decide +kernel, rfl⟩
theorem test_met_ParamsAndProgramKept : (stepped (hostDoesBusy (.write 0x00C 4 7)) (fun t => (t.pending, t.turns)))
    = some ([], []) := by decide +kernel
theorem test_met_RegistersFrozenWhileBusy : stepped { State.reset with seq := .busy 1 5 } (fun t => t.seq)
    = some (.busy 1 4) := by decide
theorem test_met_ResultsCommitAtCompletion : (stepped (inFlight 3 { Inputs.reset with opnd := 42 })
    (fun t => decide (t.out ≠ Results.reset))) = some true := by decide
theorem test_met_FailedCommandWritesNoResult : isBusy (inFlight 5 Inputs.reset) = true
    ∧ after (.aesenc false) (inFlight 5 Inputs.reset)
      (fun t => (isBusy t, t.status.err, decide (t.status.errCode ≠ .underflow))) = some (false, true, true) := by decide
/-- A completion, an acceptance, a write to STATUS and a reset. -/
theorem test_met_DoneRisesOnlyAtCompletion : stepped (inFlight 7 Inputs.reset) (fun t => t.status.done) = some true
    ∧ [BusOp.write 0 4 7, .write 4 4 2, .reset].map (fun op => stepped { hostDoes op with
        status := { Status.reset with done := true } } (fun t => t.status.done)) = [some false, some false, some false] := by
  decide +kernel
/-- A write to SEED3, a ZEROIZE that completes and a reset. -/
theorem test_met_SeedChangesOnly : stepped (hostDoes (.write 0x03C 4 7)) (fun t => t.inp.seed.w3) = some 7
    ∧ stepped (inFlight 6 scenB) (fun t => t.inp.seed) = some zeroBlock
    ∧ stepped { hostDoes .reset with inp := scenB } (fun t => t.inp.seed) = some zeroBlock := by decide +kernel
theorem test_met_HazMeansDroppedWrite :
    inv { hostDoesBusy (.write 0x00C 4 7) with
        params := { Params.reference with lat := { Latencies.least with gen := 5 } }
        status := { Status.reset with lastCmd := 1 } } = true
      ∧ dropsWrite (hostDoesBusy (.write 0x00C 4 7)) = true
      ∧ safeStep (hostDoes (.write 0x00C 4 7)) = true ∧ State.reset.status.haz = false := by decide +kernel

end Sys2Proof.Tests
end

section
/-! SUPPORT. The statements of 00_scope.md: the decimal rendering `dec` (R14), and what every step keeps of the parameters and
takes off the host's lists (R10, R201). -/

namespace Sys2Proof.Machine

/-! ### The decimal rendering -/

/-- R14: for a number other than 0, `dec` is the library's decimal expansion, most significant digit first. (The library
expands 0 into no digits, `dec` into one.) -/
theorem dec_eq_reverse_digits (n : Nat) : n ≠ 0 → dec n = (Nat.digits 10 n).reverse := by
  induction n using Nat.strong_induction_on with
  | _ n ih =>
    intro h0
    by_cases h : n < 10
    · rw [dec_small h, Nat.digits_of_lt 10 n h0 h, List.reverse_singleton]
    · have hq : n / 10 ≠ 0 := by omega
      rw [dec_big (Nat.le_of_not_lt h), ih (n / 10) (by omega) hq,
        Nat.digits_def' (by omega) (Nat.pos_of_ne_zero h0), List.reverse_cons]

/-- R14: the digits, read from the left, have the value of the number. -/
theorem dec_value (n : Nat) : (dec n).foldl (fun a d => 10 * a + d) 0 = n := by
  by_cases h0 : n = 0
  · subst h0; rfl
  · calc (dec n).foldl (fun a d => 10 * a + d) 0
        = (Nat.digits 10 n).foldr (fun d a => d + 10 * a) 0 := by
          rw [dec_eq_reverse_digits n h0, List.foldl_reverse]
          simp only [Nat.add_comm]
      _ = Nat.ofDigits 10 (Nat.digits 10 n) := (Nat.ofDigits_eq_foldr 10 _).symm
      _ = n := Nat.ofDigits_digits 10 n

theorem dec_digit_lt {n d : Nat} (hd : d ∈ dec n) : d < 10 := by
  by_cases h0 : n = 0
  · subst h0
    rw [dec_small (by omega), List.mem_singleton] at hd
    omega
  · rw [dec_eq_reverse_digits n h0, List.mem_reverse] at hd
    exact Nat.digits_lt_base (by omega) hd

/-- R14: no leading zero. -/
theorem dec_head_ne_zero {n : Nat} (h0 : n ≠ 0) : (dec n).head? ≠ some 0 := by
  have hne : Nat.digits 10 n ≠ [] := Nat.digits_ne_nil_iff_ne_zero.2 h0
  rw [dec_eq_reverse_digits n h0, List.head?_reverse, List.getLast?_eq_getLast_of_ne_nil hne]
  exact fun h => Nat.getLast_digit_ne_zero 10 h0 (Option.some.inj h)

/-- Settles O28: `dec n` is the library's decimal expansion read from the left. -/
theorem decimalRendering : Obligations.DecimalRendering := fun n =>
  ⟨dec_value n, fun _ hd => dec_digit_lt hd, List.ne_nil_of_length_pos (dec_length_pos n), dec_head_ne_zero,
    dec_small (by omega)⟩

/-! ### The parameters and the host's lists -/

/-- From `s` to `t` the parameters are kept, and each of the host's two lists loses at most its first entry (R10, R201). -/
def ProgramKept (s t : State) : Prop :=
  t.params = s.params ∧ (t.pending = s.pending ∨ ∃ op, s.pending = op :: t.pending)
    ∧ (t.turns = s.turns ∨ ∃ a, s.turns = a :: t.turns)

/-- A completion leaves the parameters and the host's lists as they are (R704). -/
theorem ruleOf_host_fields (i : Instr) (s : State) (h : i.code ≠ 0) :
    (ruleOf i s).params = s.params ∧ (ruleOf i s).pending = s.pending ∧ (ruleOf i s).turns = s.turns := by
  obtain ⟨_, _, _, _, ht, _⟩ := ruleOf_fields i s h
  rw [ht]
  exact ⟨rfl, rfl, rfl⟩

/-- The engine's turn uses up at most the choice that gave it the turn, whatever its move then does to the registers. -/
theorem programKept_of_engineNext {s u t : State} (hu : engineNext s = some u)
    (ht : t.params = u.params ∧ t.pending = u.pending ∧ t.turns = u.turns) : ProgramKept s t := by
  obtain ⟨hparams, _, _, _, _, _, _, hpending⟩ := engineNext_fields hu
  obtain ⟨_, _, hturns, _⟩ := engineNext_some hu
  obtain ⟨ht_params, ht_pending, ht_turns⟩ := ht
  rw [ProgramKept, ht_params, ht_pending, ht_turns]
  exact ⟨hparams, .inl hpending, hturns.imp_right fun e => ⟨_, e⟩⟩

/-- A host operation changes neither the parameters nor the choices left; a POLL whose condition fails puts itself back on
`pending`, and no other operation touches that list (R310). -/
theorem HostMoved.host_fields {s u t : State} {op : BusOp} (h : HostMoved s u t op) :
    t.params = u.params ∧ (t.pending = u.pending ∨ t.pending = s.pending) ∧ t.turns = u.turns := by
  cases h with
  | status _ _ _ _ _ ht | dropped _ _ _ _ _ _ _ _ _ ht | stored _ _ _ _ _ _ _ _ _ _ ht | read _ _ _ ht | wfi ht
  | reset ht =>
    rw [ht]
    exact ⟨rfl, .inl rfl, rfl⟩
  | command _ _ _ _ _ _ ht =>
    obtain ⟨hparams, hpending, hturns, _⟩ := exec_host_fields ht
    exact ⟨hparams, .inl hpending, hturns⟩
  | poll _ _ _ hp ht => exact ⟨by rw [ht], hp, by rw [ht]⟩

/-- The host's turn uses up the operation it performs (a failing POLL stays), and at most the choice that gave it the turn. -/
theorem programKept_of_hostNext {s u t : State} {op : BusOp} (hu : hostNext s = some (op, u))
    (hm : HostMoved s u t op) : ProgramKept s t := by
  obtain ⟨hparams, hpending, hturns⟩ := hm.host_fields
  obtain ⟨hu_params, _⟩ := hostNext_fields hu
  obtain ⟨hop, _, _, hchoice⟩ := hostNext_some hu
  refine ⟨hparams.trans hu_params, ?_, ?_⟩
  · rcases hpending with performed | stays
    · exact .inr ⟨op, performed ▸ hop⟩
    · exact .inl stays
  · rw [hturns]
    rcases hchoice with ⟨_, unused⟩ | ⟨_, _, _, used⟩
    · exact .inl unused
    · exact .inr ⟨.host, used⟩

/-- Settles O54, by the cases of a step: no turn, the engine's turn, or the host's. -/
theorem paramsAndProgramKept : Obligations.ParamsAndProgramKept := by
  intro s t h
  cases stepped h with
  | quiet _ ht => exact ht ▸ ⟨rfl, .inl rfl, .inl rfl⟩
  | counted u c n hu _ _ ht => exact programKept_of_engineNext hu (ht ▸ ⟨rfl, rfl, rfl⟩)
  | ended u i n hu _ hc ht => exact programKept_of_engineNext hu (ht ▸ ruleOf_host_fields i u hc)
  | stuck u n hu _ ht => exact programKept_of_engineNext hu (ht ▸ ⟨rfl, rfl, rfl⟩)
  | host u op hu hm => exact programKept_of_hostNext hu hm

end Sys2Proof.Machine
end

section
/-! SUPPORT. The statements of 10_state.md, the invariant: each operation of a step keeps it (R103, R131, R134, R810). -/

namespace Sys2Proof.Machine

/-! ### The invariant, operation by operation -/

/-- The invariant reads the parameters, STATUS, the sequencer, the inputs and the results, and nothing else. -/
theorem inv_congr {s t : State} (hparams : t.params = s.params) (hstatus : t.status = s.status) (hinp : t.inp = s.inp)
    (hout : t.out = s.out) (hseq : t.seq = s.seq) : inv t = inv s := by
  rw [Bool.eq_iff_iff, inv_iff, inv_iff, seqOk_iff, seqOk_iff, hparams, hstatus, hinp, hout, hseq]

theorem inv_hostNext {s u : State} {op : BusOp} (hu : hostNext s = some (op, u)) : inv u = inv s := by
  obtain ⟨hparams, _, hstatus, hinp, hout, hseq, _⟩ := hostNext_fields hu
  exact inv_congr hparams hstatus hinp hout hseq

theorem inv_engineNext {s u : State} (hu : engineNext s = some u) : inv u = inv s := by
  obtain ⟨hparams, _, hstatus, hinp, hout, hseq, _⟩ := engineNext_fields hu
  exact inv_congr hparams hstatus hinp hout hseq

/-- While `Idle` the sequencer's part of the invariant asks nothing. -/
theorem seqOk_idle {s : State} (h : s.seq = .idle) : seqOk s = true := by simp [seqOk, h]

/-- R10: every command has a latency of at least 1. -/
theorem one_le_latency {p : Params} (h : p.wf = true) (c : BitVec 4) : 1 ≤ latency p.lat c := by
  simp only [Params.wf, latenciesPositive, Bool.and_eq_true, decide_eq_true_eq] at h
  obtain ⟨_, hgen, htime, hbcdenc, hbcddec, haesenc, hzeroize, hrsvd⟩ := h
  unfold latency
  split <;> assumption

/-- R704: ERR agrees with ERRCODE after a completion with any code but ERR_CIPHER, which no command raises (R810). -/
theorem errOk_completed {e : ErrCode} (he : e ≠ .cipher) (t : Status) : errOk (completed e t) = true := by
  simp [errOk, completed, he]

/-- R103: a 1 written to ERR clears ERRCODE with it, so the two go on agreeing. -/
theorem errOk_clearStatus (v : Word) {t : Status} (h : errOk t = true) : errOk (clearStatus v t) = true := by
  rw [errOk_iff] at h ⊢
  cases hv : v.getLsbD 2
  · simpa only [clearStatus, hv, Bool.not_false, Bool.and_true, Bool.false_eq_true, if_false] using h
  · simp only [clearStatus, hv, if_true]
    simp

/-- R209: the bits that a write to STATUS can clear are 0 while `Busy`, but for HAZ, which the invariant leaves free. -/
theorem inv_writeStatus (v : Word) {s : State} (h : inv s = true) : inv (writeStatus v s) = true := by
  rw [inv_iff, seqOk_iff] at h ⊢
  obtain ⟨hwf, hinp, hout, hseq, herr⟩ := h
  refine ⟨hwf, hinp, hout, fun c n hbusy => ?_, errOk_clearStatus v herr⟩
  obtain ⟨hc, hn, hlast, hdone, herr0⟩ := hseq c n hbusy
  exact ⟨hc, hn, hlast, by simp [clearStatus, hdone], by simp [clearStatus, herr0]⟩

/-- R703. -/
theorem inv_dropWrite {s : State} (h : inv s = true) : inv (dropWrite s) = true := by
  rw [inv_iff, seqOk_iff, errOk_iff] at h ⊢
  exact h

/-- R701: the accepted command starts with its latency, STATUS cleared for it. -/
theorem inv_accept {c : BitVec 4} (hc : c ≠ 0) (ie : Bool) {s : State} (h : inv s = true) :
    inv (accept c ie s) = true := by
  rw [inv_iff] at h ⊢
  obtain ⟨hwf, hinp, hout, _, _⟩ := h
  refine ⟨hwf, hinp, hout, (seqOk_iff _).2 fun d n hbusy => ?_, by simp [errOk]⟩
  cases hbusy
  exact ⟨hc, ⟨one_le_latency hwf c, le_rfl⟩, rfl, rfl, rfl⟩

/-- R209. -/
theorem inv_storeReg (r : Reg) (v : Word) {s : State} (h : inv s = true) : inv (storeReg r v s) = true := by
  rw [inv_iff, seqOk_iff] at h ⊢
  obtain ⟨hwf, hinp, hout, hseq, herr⟩ := h
  exact ⟨hwf, inpOk_store r v s.inp hinp, hout, hseq, herr⟩

/-- R900. -/
theorem inv_resetEngine {s : State} (h : inv s = true) : inv (resetEngine s) = true := by
  rw [inv_iff] at h ⊢
  exact ⟨h.1, inpOk_reset, outOk_reset, rfl, rfl⟩

/-- R704: a completion leaves the inputs or clears them, and writes results that are well formed. -/
theorem inv_ruleOf {i : Instr} (hc : i.code ≠ 0) {s : State} (h : inv s = true) : inv (ruleOf i s) = true := by
  rw [inv_iff] at h ⊢
  obtain ⟨hwf, hinp, hout, _, _⟩ := h
  have hrule := outOk_rule i s hc hout
  obtain ⟨e, o, p, he, ht, hp⟩ := ruleOf_fields i s hc
  rw [ht] at hrule ⊢
  refine ⟨hwf, ?_, hrule, seqOk_idle rfl, errOk_completed he s.status⟩
  rcases hp with rfl | ⟨rfl, _⟩
  · exact hinp
  · exact inpOk_reset

/-- R131: a cycle counted down leaves at least one. -/
theorem inv_counted {s : State} {c : BitVec 4} {n : Nat} (hq : s.seq = .busy c n) (hn : 2 ≤ n) (h : inv s = true) :
    inv { s with seq := .busy c (n - 1) } = true := by
  rw [inv_iff, seqOk_iff] at h ⊢
  obtain ⟨hwf, hinp, hout, hseq, herr⟩ := h
  refine ⟨hwf, hinp, hout, fun d m hbusy => ?_, herr⟩
  cases hbusy
  obtain ⟨hc, ⟨_, hle⟩, hstatus⟩ := hseq c n hq
  exact ⟨hc, ⟨by omega, (Nat.sub_le n 1).trans hle⟩, hstatus⟩

/-- R701, R702: a command word run while `Idle` is accepted or only sets IE. -/
theorem inv_exec_idle {i : Instr} {s t : State} (hq : s.seq = .idle) (ht : exec i s = .next t) (h : inv s = true) :
    inv t = true := by
  rcases exec_idle_fields hq ht with ⟨rfl, _⟩ | ⟨rfl, hc⟩
  · rw [← h]
    exact inv_congr rfl rfl rfl rfl rfl
  · exact inv_accept hc i.ie h

/-- A host operation keeps the invariant (R209, R210, R310, R703, R900). -/
theorem inv_hostMoved {s u t : State} {op : BusOp} (hu : hostNext s = some (op, u)) (hm : HostMoved s u t op)
    (h : inv u = true) : inv t = true := by
  obtain ⟨_, _, _, _, _, hseq, _⟩ := hostNext_fields hu
  cases hm with
  | status _ _ _ v _ ht => exact ht ▸ inv_writeStatus v h
  | dropped _ _ _ _ _ _ _ _ _ ht => exact ht ▸ inv_dropWrite h
  | command _ _ _ _ _ hidle ht => exact inv_exec_idle (hseq.trans hidle) ht h
  | stored _ _ _ v r _ _ _ _ _ ht => exact ht ▸ inv_storeReg r v h
  | read _ _ _ ht | poll _ _ _ _ ht => rw [ht, ← h]; exact inv_congr rfl rfl rfl rfl rfl
  | wfi ht => exact ht ▸ h
  | reset ht => exact ht ▸ inv_resetEngine h

/-- Settles O53, by the cases of a step: nothing, a cycle, a completion, or a host operation. -/
theorem stepKeepsInv : Obligations.StepKeepsInv := by
  intro s t h hst
  cases stepped hst with
  | quiet _ ht => exact ht ▸ h
  | counted u c n hu hq hn ht =>
    obtain ⟨_, _, _, _, _, hseq, _⟩ := engineNext_fields hu
    exact ht ▸ inv_counted (hseq.trans hq) hn (inv_engineNext hu ▸ h)
  | ended u i n hu _ hc ht => exact ht ▸ inv_ruleOf hc (inv_engineNext hu ▸ h)
  | stuck u n hu _ ht => exact ht ▸ inv_dropWrite (inv_engineNext hu ▸ h)
  | host u op hu hm => exact inv_hostMoved hu hm (inv_hostNext hu ▸ h)

end Sys2Proof.Machine
end

section
/-! SUPPORT. The statements of 10_state.md, the register map and the host's accesses (R101 to R121, R202 to R210). -/

namespace Sys2Proof.Machine

/-! ### The answer to an access, one equation for each place where it lands -/

theorem hostWrite_status {addr n off : Nat} {s : State} (hl : landing s.params addr n = .reg off .status) (v : Word) :
    hostWrite addr n v s = .answer (.next (writeStatus v s)) := by
  simp [hostWrite, hl, writable]

theorem hostWrite_busy {addr n off : Nat} {r : Reg} {s : State} (hl : landing s.params addr n = .reg off r)
    (hw : writable r = true) (hr : r ≠ .status) (hb : isBusy s = true) (v : Word) :
    hostWrite addr n v s = .answer (.next (dropWrite s)) := by
  cases r <;> simp_all [hostWrite]

theorem hostWrite_ctrl {addr n off : Nat} {s : State} (hl : landing s.params addr n = .reg off .ctrl)
    (hb : isBusy s = false) (v : Word) : hostWrite addr n v s = .run (decode v) s := by
  simp [hostWrite, hl, hb, writable]

theorem hostWrite_store {addr n off : Nat} {r : Reg} {s : State} (hl : landing s.params addr n = .reg off r)
    (hw : writable r = true) (hr : r ≠ .status) (hc : r ≠ .ctrl) (hb : isBusy s = false) (v : Word) :
    hostWrite addr n v s = .answer (.next (storeReg r v s)) := by
  cases r <;> simp_all [hostWrite]

theorem hostWrite_readOnly {addr n off : Nat} {r : Reg} {s : State} (hl : landing s.params addr n = .reg off r)
    (hw : writable r = false) (v : Word) : hostWrite addr n v s = .answer (.fault (.busError off)) := by
  simp [hostWrite, hl, hw]

theorem hostWrite_busError {addr n off : Nat} {s : State} (hl : landing s.params addr n = .busError off) (v : Word) :
    hostWrite addr n v s = .answer (.fault (.busError off)) := by
  simp [hostWrite, hl]

theorem hostWrite_outside {addr n : Nat} {s : State} (hl : landing s.params addr n = .outside) (v : Word) :
    hostWrite addr n v s = .answer (.refused (.outsideWindow addr)) := by
  simp [hostWrite, hl]

theorem hostRead_reg {addr n off : Nat} {r : Reg} {s : State} (hl : landing s.params addr n = .reg off r)
    (k : Word → State) : hostRead addr n s k = .answer (.next (k (readReg r s))) := by
  simp [hostRead, hl]

theorem hostRead_busError {addr n off : Nat} {s : State} (hl : landing s.params addr n = .busError off)
    (k : Word → State) : hostRead addr n s k = .answer (.fault (.busError off)) := by
  simp [hostRead, hl]

/-- R101: the host's access to the offset of a register lands on it; taking the operation off its list moves no window. -/
theorem landing_hostNext {s u : State} {op : BusOp} {off : Nat} {r : Reg} (hu : hostNext s = some (op, u))
    (hat : regAt off = some r) : landing u.params (s.params.base + off) 4 = .reg off r := by
  rw [(hostNext_fields hu).1]
  exact landing_reg hat s.params

section
variable {s u : State} {addr off : Nat}

theorem step_write_busError {n : Nat} {v : Word} (hl : landing s.params addr n = .busError off)
    (hu : hostNext s = some (.write addr n v, u)) : step s = .fault (.busError off) := by
  rw [← (hostNext_fields hu).1] at hl
  rw [step_write hu, hostWrite_busError hl, resolve_answer]

theorem step_read_busError {n : Nat} {e : Option Word} (hl : landing s.params addr n = .busError off)
    (hu : hostNext s = some (.read addr n e, u)) : step s = .fault (.busError off) := by
  rw [← (hostNext_fields hu).1] at hl
  rw [step_read hu, hostRead_busError hl, resolve_answer]

/-- R310: each iteration of a POLL is a read of 4 bytes. -/
theorem step_poll_busError {mask val : Word} (hl : landing s.params addr 4 = .busError off)
    (hu : hostNext s = some (.poll addr mask val, u)) : step s = .fault (.busError off) := by
  rw [← (hostNext_fields hu).1] at hl
  rw [step_host hu]
  simp only [hostMove]
  rw [hostRead_busError (s := { u with pending := s.pending }) hl, resolve_answer]

end

/-- R101: the aligned offsets of the window without a register. -/
theorem regAt_eq_none_iff {off : Nat} (h : off < 0x100) (ha : off % 4 = 0) :
    regAt off = none ↔ off = 0x02C ∨ off = 0x07C := by
  have hm : ∀ k < 64, (regAt (4 * k) = none ↔ 4 * k = 0x02C ∨ 4 * k = 0x07C) := by decide
  obtain ⟨k, rfl⟩ := Nat.dvd_of_mod_eq_zero ha
  exact hm k (by omega)

/-- Settles O42: the two offsets hold no register, so every access to them lands on a bus error. -/
theorem unmappedOffsetsRefused : Obligations.UnmappedOffsetsRefused := by
  refine ⟨fun off h ha => regAt_eq_none_iff h ha, fun s u off v mask val e hoff hu => ?_⟩
  obtain ⟨hlt, ha⟩ : off < 0x100 ∧ off % 4 = 0 := by omega
  have hl := landing_unmapped hlt ha ((regAt_eq_none_iff hlt ha).2 hoff) s.params
  rcases hu with hu | hu | hu
  · exact step_write_busError hl hu
  · exact step_read_busError hl hu
  · exact step_poll_busError hl hu

/-! ### The bits of STATUS and CTRL -/

/-- R103: STATUS bit by bit. -/
theorem statusWord_getLsbD (s : State) (i : Nat) :
    (statusWord s).getLsbD i =
      if i = 0 then isBusy s else if i = 1 then s.status.done else if i = 2 then s.status.err
      else if i = 3 then s.status.haz else if i < 8 then (errBits s.status.errCode).getLsbD (i - 4)
      else if i < 12 then s.status.lastCmd.getLsbD (i - 8) else false := by
  simp only [statusWord, BitVec.getLsbD_append, BitVec.getLsbD_ofBool, BitVec.getLsbD_zero]
  rcases i with _ | _ | _ | _ | i
  · simp
  · simp
  · simp
  · simp
  · have h8 : i + 4 < 8 ↔ i < 4 := by omega
    have h12 : i + 4 < 12 ↔ i - 4 < 4 := by omega
    simp [h8, h12]

/-- What a write of `v` to STATUS clears in the word (R103): the W1C bits written as 1, and ERRCODE with ERR. -/
def statusCleared (v : Word) : Word := (v &&& 0x0000000E#32) ||| (if v.getLsbD 2 then 0x000000F0#32 else 0#32)

theorem statusCleared_getLsbD (v : Word) {i : Nat} (hi : i < 32) : (statusCleared v).getLsbD i =
    if i = 0 then false else if i < 4 then v.getLsbD i else if i < 8 then v.getLsbD 2 else false := by
  rw [statusCleared, BitVec.getLsbD_or, BitVec.getLsbD_and]
  cases v.getLsbD 2 <;> interval_cases i <;> simp

theorem errBits_clearStatus_getLsbD (v : Word) (t : Status) (i : Nat) :
    (errBits (clearStatus v t).errCode).getLsbD i = ((errBits t.errCode).getLsbD i && !v.getLsbD 2) := by
  simp only [clearStatus]
  cases v.getLsbD 2 <;> simp [errBits]

/-- R103: a write to STATUS leaves the word with the bits of `statusCleared` 0, and every other bit as it was. -/
theorem statusWord_writeStatus (v : Word) (s : State) :
    statusWord (writeStatus v s) = statusWord s &&& ~~~(statusCleared v) := by
  apply BitVec.eq_of_getLsbD_eq
  intro i hi
  have hb : isBusy (writeStatus v s) = isBusy s := rfl
  rw [BitVec.getLsbD_and, BitVec.getLsbD_not, statusWord_getLsbD, statusWord_getLsbD, statusCleared_getLsbD v hi, hb]
  simp only [hi, writeStatus_status, errBits_clearStatus_getLsbD]
  interval_cases i <;> simp [clearStatus]

/-- Settles O39: the write lands on STATUS, which is written while `Busy` too. -/
theorem statusWriteOneToClear : Obligations.StatusWriteOneToClear := by
  intro s u v hu
  have hl : landing u.params (s.params.base + 4) 4 = .reg 4 .status := landing_hostNext hu rfl
  refine ⟨writeStatus v u, ?_, rfl, statusWord_writeStatus v u⟩
  rw [step_write hu, hostWrite_status hl, resolve_answer]

/-! ### Reads -/

/-- R111. -/
theorem readReg_seed (w : Fin 4) (s : State) : readReg (.seed w) s = 0 := rfl

/-- R208. -/
theorem readReg_eq_and {r : Reg} (h : ∀ w, r ≠ .seed w) (s : State) : readReg r s = held r s &&& fieldMask r := by
  cases r with
  | seed w => exact absurd rfl (h w)
  | _ => rfl

/-- R103: DONE is not reserved. -/
theorem readReg_status_done (s : State) : (readReg .status s).getLsbD 1 = s.status.done := by
  rw [readReg_eq_and (by simp), BitVec.getLsbD_and, held, statusWord_getLsbD]
  simp [fieldMask]

/-- R102: IE is not reserved. -/
theorem readReg_ctrl_ie (s : State) : (readReg .ctrl s).getLsbD 8 = s.ie := by
  rw [readReg_eq_and (by simp), BitVec.getLsbD_and, held, ctrlWord_eq]
  cases s.ie <;> rfl

/-- Settles O51. -/
theorem irqIsDoneAndIe : Obligations.IrqIsDoneAndIe := fun s => by
  rw [readReg_status_done, readReg_ctrl_ie, irq]

/-- Settles O49, row by row of the map. -/
theorem resetValues : Obligations.ResetValues := by
  unfold Obligations.ResetValues
  decide

/-! ### The rows of the register map -/

/-- The model agrees with a row of R101: the register at its offset, the word it holds and its reserved bits. -/
def RowAgrees (s : State) (row : RegRow) : Prop :=
  regAt row.off = some row.reg ∧ held row.reg s = row.value ∧ fieldMask row.reg = row.mask

/-- R101 to R121: with the words of CTRL, STATUS and DIGITS as arithmetic, each row is one of the model's definitions. -/
theorem rowAgrees_registerRows (s : State) : ∀ row ∈ registerRows s, RowAgrees s row := by
  simp only [registerRows, blockRows, ← ctrlWord_eq, ← statusWord_eq_sum, ← digitsWord_eq_sum, List.forall_mem_append,
    List.forall_mem_cons, List.not_mem_nil, false_implies, implies_true, and_true]
  and_intros <;> rfl

/-- R111: the offsets that hold a SEED word. -/
theorem regAt_seed_iff {off : Nat} {r : Reg} (h : regAt off = some r) :
    (0x030 ≤ off ∧ off ≤ 0x03C) ↔ ∃ w, r = .seed w := by
  have hm : ∀ q ∈ regMap, (0x030 ≤ q.1 ∧ q.1 ≤ 0x03C) ↔ ∃ w, q.2 = .seed w := by decide
  exact hm _ (regAt_mem h)

/-- What a read returns, by the row of the register (R208, R111). -/
theorem readReg_eq_rowRead {s : State} {row : RegRow} (h : RowAgrees s row) : readReg row.reg s = rowRead row := by
  obtain ⟨hat, hheld, hmask⟩ := h
  unfold rowRead
  split
  · next hseed =>
    obtain ⟨w, hw⟩ := (regAt_seed_iff hat).1 hseed
    rw [hw, readReg_seed]
  · next hseed => rw [readReg_eq_and fun w hw => hseed ((regAt_seed_iff hat).2 ⟨w, hw⟩), hheld, hmask]

/-- Settles O44: an RD of a row's register returns what the row says and records it. -/
theorem readsHaveNoSideEffect : Obligations.ReadsHaveNoSideEffect := by
  refine ⟨rowAgrees_registerRows, fun s u row e hrow hu => ?_⟩
  obtain ⟨_, _, _, _, _, _, hreads⟩ := hostNext_fields hu
  have hagree := rowAgrees_registerRows s row hrow
  rw [step_read hu, hostRead_reg (landing_hostNext hu hagree.1), resolve_answer, readReg_hostNext hu,
    readReg_eq_rowRead hagree, ← hreads]
  rfl

/-! ### Stores -/

/-- The offsets of the registers that a command reads (R101, R303): every RW and WO register but CTRL. -/
def inputOffsets : List Nat :=
  [0x00C, 0x010, 0x014, 0x018, 0x01C, 0x020, 0x024, 0x030, 0x034, 0x038, 0x03C, 0x040, 0x044, 0x048, 0x04C]

theorem writable_of_inputOffset {off : Nat} {r : Reg} (h : regAt off = some r) (hoff : off ∈ inputOffsets) :
    writable r = true ∧ r ≠ .status ∧ r ≠ .ctrl := by
  have hm : ∀ q ∈ regMap, q.1 ∈ inputOffsets → writable q.2 = true ∧ q.2 ≠ .status ∧ q.2 ≠ .ctrl := by decide
  exact hm _ (regAt_mem h) hoff

/-- The LOADED bit that a write to a register sets (R104, R209). -/
def loadedBit : Reg → Word
  | .seed w => 1#32 <<< w.val
  | .serial0 => 0x10
  | .serial1 => 0x20
  | .time0 => 0x40
  | .time1 => 0x80
  | _ => 0

theorem held_loaded_storeReg (r : Reg) (v : Word) (s : State) :
    held .loaded (storeReg r v s) = held .loaded s ||| loadedBit r := by
  cases r with
  | seed w | serial0 | serial1 | time0 | time1 => rfl
  | _ => exact (BitVec.or_zero).symm

/-- R104: the same bit by the offset of the register. -/
def loadedBitAt (off : Nat) : Word :=
  if 0x030 ≤ off ∧ off ≤ 0x03C then 1#32 <<< ((off - 0x030) / 4)
  else if off = 0x014 then 0x10 else if off = 0x018 then 0x20
  else if off = 0x01C then 0x40 else if off = 0x020 then 0x80 else 0

theorem loadedBit_eq_loadedBitAt {off : Nat} {r : Reg} (h : regAt off = some r) : loadedBit r = loadedBitAt off := by
  have hm : ∀ q ∈ regMap, loadedBit q.2 = loadedBitAt q.1 := by decide
  exact hm _ (regAt_mem h)

/-- A store leaves every register but its own and LOADED as it was (R209). -/
theorem held_storeReg_other {r q : Reg} (hq : q ≠ r) (hl : q ≠ .loaded) (v : Word) (s : State) :
    held q (storeReg r v s) = held q s := by
  cases r with
  | seed w =>
    cases q with
    | seed x => exact (getWord_setWord _ w x _).trans (if_neg fun h => hq (congrArg Reg.seed h))
    | loaded => contradiction
    | _ => rfl
  | auxBlk w =>
    cases q with
    | auxBlk x => exact (getWord_setWord _ w x _).trans (if_neg fun h => hq (congrArg Reg.auxBlk h))
    | _ => rfl
  | flags | pin | opnd | serial0 | serial1 | time0 | time1 => cases q <;> trivial
  | _ => cases q <;> rfl

/-- Settles O40: the write lands on the row's register, which is stored. -/
theorem inputWriteStores : Obligations.InputWriteStores := by
  intro s u row v hs hrow hoff hu
  obtain ⟨hat, _, hmask⟩ := rowAgrees_registerRows s row hrow
  obtain ⟨hw, hstatus, hctrl⟩ := writable_of_inputOffset hat hoff
  obtain ⟨_, _, _, _, _, hseq, _⟩ := hostNext_fields hu
  have hl := landing_hostNext hu hat
  refine ⟨storeReg row.reg v u, ?_, rfl, ?_, fun q hq hload => ?_, ?_⟩
  · rw [step_write hu, hostWrite_store hl hw hstatus hctrl (isBusy_idle u (hseq.trans hs)), resolve_answer]
  · rw [held_storeReg _ _ _ hw hctrl hstatus, hmask]
  · rw [held_storeReg_other hq hload, held_hostNext hu]
  · rw [held_loaded_storeReg, held_hostNext hu, loadedBit_eq_loadedBitAt hat]
    rfl

end Sys2Proof.Machine
end

section
/-! SUPPORT. The statements of 10_state.md about the seed on the bus, and about what can change a result register, DONE and
the seed (R111, R132, R134, R211, R817). -/

namespace Sys2Proof.Machine

/-! ### The seed on the bus: every host operation commutes with a change of the seed -/

/-- The state with another seed. -/
def withSeed (b : Block) (s : State) : State := { s with inp := { s.inp with seed := b } }

/-- The outcome with another seed; a stop carries none. -/
def outcomeWithSeed (b : Block) : Host.Outcome State Fault Refusal → Host.Outcome State Fault Refusal
  | .next t => .next (withSeed b t)
  | .fault f => .fault f
  | .refused f => .refused f

/-- R111. -/
theorem readReg_withSeed (b : Block) (r : Reg) (s : State) : readReg r (withSeed b s) = readReg r s := by
  cases r <;> rfl

theorem hostRead_withSeed (b : Block) (addr n : Nat) (s : State) (k k' : Word → State)
    (hk : ∀ v, k' v = withSeed b (k v)) :
    resolve (hostRead addr n (withSeed b s) k') = outcomeWithSeed b (resolve (hostRead addr n s k)) := by
  have hp : (withSeed b s).params = s.params := rfl
  cases hl : landing s.params addr n <;> simp [hostRead, hp, hl, readReg_withSeed, hk, outcomeWithSeed]

/-- A store to a SEED register decides the word it writes, any other store leaves the seed (R209). -/
theorem storeReg_withSeed (b : Block) (r : Reg) (v : Word) (s : State) :
    ∃ b', storeReg r v (withSeed b s) = withSeed b' (storeReg r v s) := by
  cases r with
  | seed w => exact ⟨setWord b w (v &&& fieldMask (.seed w)), rfl⟩
  | _ => exact ⟨b, rfl⟩

/-- R701, R702: a command word run while `Idle` reads no input register. -/
theorem exec_withSeed (b : Block) (i : Instr) {s : State} (hs : s.seq = .idle) :
    exec i (withSeed b s) = outcomeWithSeed b (exec i s) := by
  have hs' : (withSeed b s).seq = .idle := hs
  by_cases h0 : i.code = 0
  · obtain ⟨ie, rfl⟩ := code_eq_zero h0
    rw [exec_noCmd_idle ie hs, exec_noCmd_idle ie hs']
    rfl
  · rw [exec_idle i hs h0, exec_idle i hs' h0]
    rfl

theorem hostWrite_withSeed (b : Block) (addr n : Nat) (v : Word) (s : State) :
    ∃ b', resolve (hostWrite addr n v (withSeed b s)) = outcomeWithSeed b' (resolve (hostWrite addr n v s)) := by
  rcases hostWrite_cases addr n v s with ⟨off, hl, e⟩ | ⟨off, r, hl, hw, hr, hb, e⟩ | ⟨off, hl, hb, e⟩ |
    ⟨off, r, hl, hw, hr, hc, hb, e⟩ | ⟨off, r, hl, hw, e⟩ | ⟨off, hl, e⟩ | ⟨hl, e⟩ <;> rw [e]
  · exact ⟨b, by rw [hostWrite_status (s := withSeed b s) hl]; rfl⟩
  · exact ⟨b, by rw [hostWrite_busy (s := withSeed b s) hl hw hr hb]; rfl⟩
  · exact ⟨b, by rw [hostWrite_ctrl (s := withSeed b s) hl hb]; exact exec_withSeed b _ (seq_idle hb)⟩
  · obtain ⟨b', hstore⟩ := storeReg_withSeed b r v s
    exact ⟨b', by rw [hostWrite_store (s := withSeed b s) hl hw hr hc hb, hstore]; rfl⟩
  · exact ⟨b, by rw [hostWrite_readOnly (s := withSeed b s) hl hw]; rfl⟩
  · exact ⟨b, by rw [hostWrite_busError (s := withSeed b s) hl]; rfl⟩
  · exact ⟨b, by rw [hostWrite_outside (s := withSeed b s) hl]; rfl⟩

theorem hostMove_withSeed (b : Block) (op : BusOp) (rest : List BusOp) (s : State) :
    ∃ b', resolve (hostMove op rest (withSeed b s)) = outcomeWithSeed b' (resolve (hostMove op rest s)) := by
  cases op with
  | write addr n v => exact hostWrite_withSeed b addr n v { s with pending := rest }
  | read addr n e =>
    simp only [hostMove]
    exact ⟨b, hostRead_withSeed b addr n s _ _ fun _ => rfl⟩
  | poll addr mask val =>
    simp only [hostMove]
    refine ⟨b, hostRead_withSeed b addr 4 s _ _ fun v => ?_⟩
    split <;> rfl
  | wfi => exact ⟨b, rfl⟩
  | reset => exact ⟨Inputs.reset.seed, rfl⟩

/-- Which operation the host performs does not depend on the seed (R700). -/
theorem hostNext_withSeed (b : Block) {s u : State} {op : BusOp} (hu : hostNext s = some (op, u)) :
    hostNext (withSeed b s) = some (op, withSeed b u) := by
  obtain ⟨hp, hfields, hr, hturn⟩ := hostNext_some hu
  have hp' : (withSeed b s).pending = op :: u.pending := hp
  have hr' : hostReady (withSeed b s) = true := hr
  rw [hfields]
  rcases hturn with ⟨hq, ht⟩ | ⟨c, n, hq, ht⟩
  · have hq' : (withSeed b s).seq = .idle := hq
    simp only [hostNext, hp', hr', hq', if_true, hq, ht]
    rfl
  · have hq' : (withSeed b s).seq = .busy c n := hq
    have ht' : (withSeed b s).turns = .host :: u.turns := ht
    simp only [hostNext, hp', hr', hq', ht', if_true, hq]
    rfl

theorem step_withSeed (b : Block) {s u : State} {op : BusOp} (hu : hostNext s = some (op, u)) :
    ∃ b', step (withSeed b s) = outcomeWithSeed b' (step s) := by
  rw [step_host hu, step_host (hostNext_withSeed b hu)]
  exact hostMove_withSeed b op u.pending { u with pending := s.pending }

/-- Settles O47: with another seed the step is the same up to the seed. -/
theorem seedNeverReachesHost : Obligations.SeedNeverReachesHost := by
  intro s b hs
  obtain ⟨⟨op, u⟩, hu⟩ := Option.isSome_iff_exists.1 hs
  obtain ⟨b', hstep⟩ := step_withSeed b hu
  change step { s with inp := { s.inp with seed := b } } = _ at hstep
  rw [hstep]
  refine ⟨fun t ht => ?_, fun f hf => ?_, fun f hf => ?_⟩
  · rw [ht]; rfl
  · rw [hf]; rfl
  · rw [hf]; rfl

/-! ### What can change a result register, DONE and the seed -/

/-- R701, R702: a command word run while `Idle` leaves the inputs and the results, and DONE unless it is accepted. -/
theorem exec_idle_keeps {i : Instr} {s t : State} (hs : s.seq = .idle) (h : exec i s = .next t) :
    t.inp = s.inp ∧ t.out = s.out
      ∧ (t.status.done = s.status.done ∨ t.status.done = false ∧ isBusy t = true) := by
  rcases exec_idle_fields hs h with ⟨rfl, _⟩ | ⟨rfl, _⟩
  · exact ⟨rfl, rfl, .inl rfl⟩
  · exact ⟨rfl, rfl, .inr ⟨rfl, rfl⟩⟩

/-- R704: a completion raises DONE and ends the command. -/
theorem ruleOf_done (i : Instr) (s : State) (hc : i.code ≠ 0) :
    (ruleOf i s).status.done = true ∧ (ruleOf i s).seq = .idle := by
  obtain ⟨_, _, _, _, ht, _⟩ := ruleOf_fields i s hc
  rw [ht]
  exact ⟨rfl, rfl⟩

/-- R708: only the completion of ZEROIZE writes an input register. -/
theorem ruleOf_inp (i : Instr) (s : State) (hc : i.code ≠ 0) : (ruleOf i s).inp = s.inp ∨ i.code = 6 := by
  obtain ⟨_, _, _, _, ht, hp⟩ := ruleOf_fields i s hc
  rw [ht]
  exact hp.imp_right And.right

/-- R209. -/
theorem storeInput_seed (r : Reg) (v : Word) (i : Inputs) :
    (storeInput r v i).seed = i.seed ∨ ∃ w, r = .seed w := by
  cases r with
  | seed w => exact .inr ⟨w, rfl⟩
  | _ => exact .inl rfl

/-- The address of an access that lands on a register whose offset is known (R101). -/
theorem landing_addr {p : Params} {addr n off off' : Nat} {r : Reg} (hl : landing p addr n = .reg off r)
    (hat : regAt off' = some r) : addr = p.base + off' ∧ n = 4 := by
  obtain ⟨haddr, hn, hoff⟩ := landing_inv hl
  exact ⟨regAt_unique hoff hat ▸ haddr, hn⟩

theorem regAt_seed (w : Fin 4) : regAt (0x030 + 4 * w) = some (.seed w) := by fin_cases w <;> rfl

section
variable {s u t : State} {op : BusOp}

/-- R132, R211: no host operation but reset writes a result register. -/
theorem HostMoved.out_eq (hm : HostMoved s u t op) (hu : hostNext s = some (op, u)) :
    t.out = s.out ∨ op = .reset := by
  obtain ⟨_, _, _, _, hout, hseq, _⟩ := hostNext_fields hu
  rw [← hout]
  cases hm with
  | status _ _ _ _ _ ht | dropped _ _ _ _ _ _ _ _ _ ht | stored _ _ _ _ _ _ _ _ _ _ ht | read _ _ _ ht
  | poll _ _ _ _ ht | wfi ht => exact .inl (congrArg (·.out) ht)
  | command _ _ _ _ _ hidle ht =>
    obtain ⟨_, hkept, _⟩ := exec_idle_keeps (hseq.trans hidle) ht
    exact .inl hkept
  | reset => exact .inr rfl

/-- R134: what a host operation does to DONE. -/
theorem HostMoved.done_cases (hm : HostMoved s u t op) (hu : hostNext s = some (op, u)) :
    t.status.done = s.status.done ∨ t.status.done = false
      ∧ (isBusy s = false ∧ isBusy t = true ∨ (∃ v, op = .write (s.params.base + 4) 4 v) ∨ op = .reset) := by
  obtain ⟨_, _, hstatus, _, _, hseq, _⟩ := hostNext_fields hu
  rw [← hstatus]
  cases hm with
  | status _ _ _ v hl ht =>
    obtain ⟨rfl, rfl⟩ := landing_addr (off' := 4) hl rfl
    rw [ht, writeStatus_status, clearStatus]
    cases v.getLsbD 1
    · exact .inl (Bool.and_true _)
    · exact .inr ⟨Bool.and_false _, .inr (.inl ⟨v, rfl⟩)⟩
  | dropped _ _ _ _ _ _ _ _ _ ht | stored _ _ _ _ _ _ _ _ _ _ ht | read _ _ _ ht | poll _ _ _ _ ht | wfi ht =>
    exact .inl (congrArg (·.status.done) ht)
  | command _ _ _ _ _ hidle ht =>
    obtain ⟨_, _, hdone⟩ := exec_idle_keeps (hseq.trans hidle) ht
    exact hdone.imp_right fun ⟨hfalse, hbusy⟩ => ⟨hfalse, .inl ⟨isBusy_idle s hidle, hbusy⟩⟩
  | reset ht => exact .inr ⟨by rw [ht]; rfl, .inr (.inr rfl)⟩

/-- R111: what a host operation does to the seed. -/
theorem HostMoved.seed_cases (hm : HostMoved s u t op) (hu : hostNext s = some (op, u)) :
    t.inp.seed = s.inp.seed ∨ (∃ (w : Fin 4) (v : Word), op = .write (s.params.base + 0x030 + 4 * w) 4 v)
      ∨ op = .reset := by
  obtain ⟨_, _, _, hinp, _, hseq, _⟩ := hostNext_fields hu
  rw [← hinp]
  cases hm with
  | status _ _ _ _ _ ht | dropped _ _ _ _ _ _ _ _ _ ht | read _ _ _ ht | poll _ _ _ _ ht | wfi ht =>
    exact .inl (congrArg (·.inp.seed) ht)
  | command _ _ _ _ _ hidle ht =>
    obtain ⟨hkept, _⟩ := exec_idle_keeps (hseq.trans hidle) ht
    exact .inl (by rw [hkept])
  | stored _ _ _ v r hl _ _ _ _ ht =>
    rcases storeInput_seed r v u.inp with hkept | ⟨w, rfl⟩
    · exact .inl (by rw [ht, storeReg_inp, hkept])
    · obtain ⟨rfl, rfl⟩ := landing_addr hl (regAt_seed w)
      exact .inr (.inl ⟨w, v, by rw [Nat.add_assoc]⟩)
  | reset => exact .inr (.inr rfl)

end

/-- Settles O56, by the cases of a step. -/
theorem resultsCommitAtCompletion : Obligations.ResultsCommitAtCompletion := by
  intro s t hst hne
  cases stepped hst with
  | quiet _ ht => exact absurd (by rw [ht]) hne
  | counted u c n hu _ _ ht | stuck u n hu _ ht =>
    obtain ⟨_, _, _, _, hout, _⟩ := engineNext_fields hu
    exact absurd ((congrArg (·.out) ht).trans hout) hne
  | ended u i n _ hq hc ht =>
    exact .inl ⟨isBusy_busy s _ n hq, isBusy_idle t (ht ▸ (ruleOf_done i u hc).2)⟩
  | host u op hu hm =>
    rcases hm.out_eq hu with hout | rfl
    · exact absurd hout hne
    · exact .inr ⟨u, hu⟩

/-- R134: what a step does to DONE: a completion raises it, and only a host operation clears it. -/
theorem step_done_cases {s t : State} (hst : step s = .next t) :
    t.status.done = s.status.done
      ∨ t.status.done = true ∧ isBusy s = true ∧ isBusy t = false
      ∨ t.status.done = false ∧ (isBusy s = false ∧ isBusy t = true
          ∨ (∃ v u, hostNext s = some (.write (s.params.base + 4) 4 v, u)) ∨ ∃ u, hostNext s = some (.reset, u)) := by
  cases stepped hst with
  | quiet _ ht => exact .inl (by rw [ht])
  | counted u c n hu _ _ ht | stuck u n hu _ ht =>
    obtain ⟨_, _, hstatus, _⟩ := engineNext_fields hu
    exact .inl ((congrArg (·.status.done) ht).trans (congrArg Status.done hstatus))
  | ended u i n _ hq hc ht =>
    obtain ⟨hdone, hidle⟩ := ruleOf_done i u hc
    exact .inr (.inl (ht ▸ ⟨hdone, isBusy_busy s _ n hq, isBusy_idle _ hidle⟩))
  | host u op hu hm =>
    refine (hm.done_cases hu).imp_right fun ⟨hfalse, hcause⟩ => .inr ⟨hfalse, ?_⟩
    rcases hcause with haccept | ⟨v, rfl⟩ | rfl
    · exact .inl haccept
    · exact .inr (.inl ⟨v, u, hu⟩)
    · exact .inr (.inr ⟨u, hu⟩)

/-- Settles O58. -/
theorem doneRisesOnlyAtCompletion : Obligations.DoneRisesOnlyAtCompletion := by
  intro s t hst
  rcases step_done_cases hst with hkept | ⟨hrise, hends⟩ | ⟨hfall, hcause⟩
  · rw [hkept]
    exact ⟨fun h0 h1 => absurd (h0.symm.trans h1) Bool.false_ne_true,
      fun h1 h0 => absurd (h0.symm.trans h1) Bool.false_ne_true⟩
  · exact ⟨fun _ _ => hends, fun _ h0 => absurd (h0.symm.trans hrise) Bool.false_ne_true⟩
  · exact ⟨fun _ h1 => absurd (hfall.symm.trans h1) Bool.false_ne_true, fun _ _ => hcause⟩

/-- Settles O59, by the cases of a step. -/
theorem seedChangesOnly : Obligations.SeedChangesOnly := by
  intro s t hst hne
  cases stepped hst with
  | quiet _ ht => exact absurd (by rw [ht]) hne
  | counted u c n hu _ _ ht | stuck u n hu _ ht =>
    obtain ⟨_, _, _, hinp, _⟩ := engineNext_fields hu
    exact absurd ((congrArg (·.inp.seed) ht).trans (congrArg Inputs.seed hinp)) hne
  | ended u i n hu hq hc ht =>
    obtain ⟨_, _, _, hinp, _⟩ := engineNext_fields hu
    rcases ruleOf_inp i u hc with hkept | hzeroize
    · exact absurd (by rw [ht, hkept, hinp]) hne
    · exact .inr (.inl ⟨n, hzeroize ▸ hq, ht ▸ (ruleOf_done i u hc).2⟩)
  | host u op hu hm =>
    rcases hm.seed_cases hu with hseed | ⟨w, v, rfl⟩ | rfl
    · exact absurd hseed hne
    · exact .inl ⟨w, v, u, w.isLt, hu⟩
    · exact .inr (.inr ⟨u, hu⟩)

/-- Settles O33, by the engine's step. -/
theorem stepRunsCommandInFlight : Obligations.StepRunsCommandInFlight := by
  intro s u c n hq hu
  rw [step_engine hq hu]
  exact ⟨fun hn => if_pos hn, fun hn => if_neg (by omega)⟩

end Sys2Proof.Machine
end

section
/-! SUPPORT. The statements of 20_memory.md: accesses the bus refuses (R202, R208), a write to CTRL (R209, R301), a WAIT while
`Busy` (R215, R311), the registers while a command is in flight (R214, R217), and WORD as a register of K0 (R205). -/

namespace Sys2Proof.Machine

/-! ### Refused accesses -/

/-- Settles O41: the access lands on a bus error, whichever operation makes it. -/
theorem oddAccessesRefused : Obligations.OddAccessesRefused := by
  refine ⟨fun s u off n v e hoff hodd hu => ?_, fun s u off mask val hoff hodd hu => ?_⟩
  · have hl := landing_odd hoff hodd s.params
    rcases hu with hu | hu
    · exact step_write_busError hl hu
    · exact step_read_busError hl hu
  · exact step_poll_busError (landing_odd hoff (.inr hodd) s.params) hu

/-- R101, R208: the registers at the offsets 0x008, 0x028 and from 0x050 on take no write. -/
theorem writable_eq_false_of_regAt {off : Nat} {r : Reg} (h : regAt off = some r)
    (hoff : off = 0x008 ∨ off = 0x028 ∨ 0x050 ≤ off) : writable r = false := by
  have hm : ∀ q ∈ regMap, (q.1 = 0x008 ∨ q.1 = 0x028 ∨ 0x050 ≤ q.1) → writable q.2 = false := by decide
  exact hm _ (regAt_mem h) hoff

/-- R208: a host write that lands on a read-only register is refused. -/
theorem step_write_readOnly {s u : State} {addr n off : Nat} {r : Reg} {v : Word}
    (hl : landing s.params addr n = .reg off r) (hw : writable r = false)
    (hu : hostNext s = some (.write addr n v, u)) : step s = .fault (.busError off) := by
  rw [← (hostNext_fields hu).1] at hl
  rw [step_write hu, hostWrite_readOnly hl hw, resolve_answer]

/-- Settles O43: every such offset holds a register, and that register takes no write. -/
theorem readOnlyWritesRefused : Obligations.ReadOnlyWritesRefused := by
  intro s u off v hlt ha hoff hu
  have hmapped : regAt off ≠ none := fun h => by
    have := (regAt_eq_none_iff hlt ha).1 h
    omega
  obtain ⟨r, hat⟩ := Option.ne_none_iff_exists'.1 hmapped
  exact step_write_readOnly (landing_reg hat s.params) (writable_eq_false_of_regAt hat (by omega)) hu

/-! ### A write to CTRL -/

/-- Settles O32: the write lands on CTRL, which runs the command word while `Idle`. -/
theorem stepRunsWrittenCommand : Obligations.StepRunsWrittenCommand := by
  intro s v rest hs hp
  have hu := hostNext_idle hs hp (by simp)
  have hl : landing s.params s.params.base 4 = .reg 0 .ctrl := landing_reg (off := 0) rfl s.params
  rw [step_write hu, hostWrite_ctrl (s := { s with pending := rest }) hl (isBusy_idle _ hs), resolve_run]

/-! ### A WAIT while `Busy` -/

/-- While `Busy` the host performs its next operation when the turn is its own (R700, R815). -/
theorem hostNext_busy {s : State} {c : BitVec 4} {n : Nat} {ts : List Agent} {op : BusOp} {rest : List BusOp}
    (hs : s.seq = .busy c n) (ht : s.turns = .host :: ts) (hp : s.pending = op :: rest) (hw : op ≠ .wfi) :
    hostNext s = some (op, { s with pending := rest, turns := ts }) := by
  have hr : hostReady s = true := by cases op <;> simp_all [hostReady]
  simp only [hostNext, hp, hr, hs, ht, if_true]

/-- R310: one iteration of a POLL whose condition fails records what it read and stays on the list. -/
theorem step_poll_unmet {s u : State} {addr off : Nat} {r : Reg} {mask val : Word}
    (hu : hostNext s = some (.poll addr mask val, u)) (hl : landing s.params addr 4 = .reg off r)
    (hv : readReg r s &&& mask ≠ val) :
    step s = .next (record addr (readReg r s) none { u with pending := s.pending }) := by
  rw [← (hostNext_fields hu).1] at hl
  have hread : readReg r { u with pending := s.pending } = readReg r s := readReg_hostNext hu r
  rw [step_host hu]
  simp only [hostMove]
  rw [hostRead_reg (s := { u with pending := s.pending }) hl, hread, if_neg hv, resolve_answer]

/-- R103: BUSY is not reserved. -/
theorem readReg_status_busy (s : State) : (readReg .status s).getLsbD 0 = isBusy s := by
  rw [readReg_eq_and (by simp), BitVec.getLsbD_and, held, statusWord_getLsbD]
  simp [fieldMask]

/-- R311: the condition of a WAIT asks for BUSY = 0. -/
theorem wait_unmet_of_busy {s : State} (h : isBusy s = true) : readReg .status s &&& 0x00000003 ≠ 0x00000002 := by
  intro hmet
  have hbit := congrArg (·.getLsbD 0) hmet
  rw [BitVec.getLsbD_and, readReg_status_busy, h] at hbit
  exact absurd hbit (by decide)

/-- Settles O46: the WAIT reads BUSY as 1, so its condition fails. -/
theorem waitPollsUntilCompletion : Obligations.WaitPollsUntilCompletion := by
  intro s c n rest ts hs ht hp
  have hl : landing s.params (s.params.base + 4) 4 = .reg 4 .status := landing_reg rfl s.params
  exact ⟨_, step_poll_unmet (hostNext_busy hs ht hp (by simp)) hl (wait_unmet_of_busy (isBusy_busy s c n hs)), rfl⟩

/-! ### The registers while a command is in flight -/

/-- From `s` to `t` every register but STATUS is kept (R214). -/
def RegistersKept (s t : State) : Prop := t.inp = s.inp ∧ t.out = s.out ∧ t.ie = s.ie

/-- R214, R703: while `Busy` no host operation but reset changes a register other than STATUS, or the sequencer. -/
theorem HostMoved.busy_kept {s u t : State} {op : BusOp} (hm : HostMoved s u t op) (hu : hostNext s = some (op, u))
    (hb : isBusy s = true) : (RegistersKept s t ∧ t.seq = s.seq) ∨ t.seq = .idle := by
  obtain ⟨_, hie, _, hinp, hout, hseq, _⟩ := hostNext_fields hu
  rw [RegistersKept, ← hie, ← hinp, ← hout, ← hseq]
  cases hm with
  | status _ _ _ _ _ ht | dropped _ _ _ _ _ _ _ _ _ ht | read _ _ _ ht | poll _ _ _ _ ht | wfi ht =>
    rw [ht]
    exact .inl ⟨⟨rfl, rfl, rfl⟩, rfl⟩
  | command _ _ _ _ _ hidle | stored _ _ _ _ _ _ _ _ _ hidle => simp [isBusy, hidle] at hb
  | reset ht => exact .inr (by rw [ht]; rfl)

/-- The engine's turn itself touches no register (R700). -/
theorem registersKept_of_engineNext {s u : State} (hu : engineNext s = some u) : RegistersKept s u := by
  obtain ⟨_, hie, _, hinp, hout, _⟩ := engineNext_fields hu
  exact ⟨hinp, hout, hie⟩

/-- R214, R217: a step from `Busy` ends the command, or keeps it in flight with the registers as they were and no more
cycles left than before. -/
theorem step_busy_cases {s t : State} {c : BitVec 4} {m : Nat} (hst : step s = .next t) (hs : s.seq = .busy c m) :
    (RegistersKept s t ∧ ∃ n ≤ m, t.seq = .busy c n) ∨ t.seq = .idle := by
  cases stepped hst with
  | quiet hq => cases hq.symm.trans hs
  | counted u c' m' hu hq _ ht =>
    cases hq.symm.trans hs
    have hkept := registersKept_of_engineNext hu
    exact .inl (ht ▸ ⟨hkept, m - 1, Nat.sub_le m 1, rfl⟩)
  | ended u i _ _ _ hc ht => exact .inr (ht ▸ (ruleOf_done i u hc).2)
  | stuck u _ hu _ ht =>
    obtain ⟨_, _, _, _, _, hseq, _⟩ := engineNext_fields hu
    have hkept := registersKept_of_engineNext hu
    exact .inl (ht ▸ ⟨hkept, m, le_rfl, hseq.trans hs⟩)
  | host u op hu hm =>
    exact (hm.busy_kept hu (isBusy_busy s c m hs)).imp_left fun ⟨hkept, hseq⟩ => ⟨hkept, m, le_rfl, hseq.trans hs⟩

/-- Settles O55: the step does not end the command. -/
theorem registersFrozenWhileBusy : Obligations.RegistersFrozenWhileBusy := by
  intro s t c d m n hst hs ht
  rcases step_busy_cases hst hs with ⟨⟨hinp, hout, hie⟩, k, hk, hseq⟩ | hidle
  · cases ht.symm.trans hseq
    exact ⟨hinp, hout, hie, rfl, hk⟩
  · cases ht.symm.trans hidle

/-! ### WORD and OFFSET -/

/-- R602, R115: WORD is the K0 register at `OFFSET div 4`, in the results that a GEN writes. -/
theorem genResults_word (p : Params) (i : Inputs) (o : Results) :
    (genResults p i o).word = getWord (genResults p i o).k0 (Fin.ofNat 4 ((genResults p i o).offset.toNat / 4)) := by
  obtain ⟨w, hw⟩ := offset_form p i
  have hoff : (genResults p i o).offset.toNat = offsetArith p i := by
    change (BitVec.ofNat 32 (genOffset p i)).toNat = offsetArith p i
    rw [genOffset_eq, hw, BitVec.toNat_ofNat]
    omega
  rw [hoff]
  exact genWord_eq p i

/-- Settles O21. -/
theorem wordIsK0AtOffset : Obligations.WordIsK0AtOffset := fun ie s n hs hv =>
  ⟨_, exec_gen_valid ie s n hs hv, genResults_word s.params s.inp s.out, (off_mask _ (offset_ok s.params s.inp)).2⟩

end Sys2Proof.Machine
end

section
/-! SUPPORT. The statements of 30_encoding.md: the command word and its fields (R300 to R302), the round-key blocks that a GEN
leaves (R307, R450, R451), and the host's waiting operations WFI and POLL (R310, R814). -/

namespace Sys2Proof.Machine

/-! ### The command word -/

/-- R300, R301: an instruction is its code and its IE. -/
theorem decode_encode (i : Instr) : decode (encode i) = i := by
  rw [decode, cmdField_encode, ieField_encode, decodeCmd_code_ie]

/-- R300: a listing of 32 bits is the command word itself. -/
theorem decodeTableWord_toNat (w : Word) : decodeTableWord 32 w.toNat = some (decode w) := by
  simp only [decodeTableWord, le_refl, if_true, Nat.mod_eq_of_lt w.isLt, BitVec.ofNat_toNat, BitVec.setWidth_eq]

/-- R300: CMD, put back where it stood. -/
theorem setWidth_cmdField (w : Word) : (cmdField w).setWidth 32 = w &&& 0x0000000F#32 := by
  apply BitVec.eq_of_toNat_eq
  have hlt := Nat.mod_lt w.toNat (show 16 > 0 by omega)
  rw [BitVec.toNat_setWidth, cmdField_toNat, Nat.mod_eq_of_lt (by omega), BitVec.toNat_and]
  exact (Nat.and_two_pow_sub_one_eq_mod _ 4).symm

/-- R300, R302: what a command word decodes to is encoded as the word with its reserved bits 0. -/
theorem encode_decode (w : Word) : encode (decode w) = w &&& 0x0000010F#32 := by
  have hie : (if ieField w then 0x100#32 else 0#32) = w &&& 0x00000100#32 := (BitVec.and_twoPow w 8).symm
  rw [encode, decode_ie, decode_code, hie, setWidth_cmdField, ← BitVec.and_or_distrib_left]
  rfl

/-- Settles O1: `decode` and `encode` invert each other field by field. -/
theorem encodeDecodeRoundTrip : Obligations.EncodeDecodeRoundTrip :=
  ⟨fun i => ⟨decode_encode i, by rw [decodeTableWord_toNat, decode_encode]⟩, encode_decode⟩

/-- R300, R302: the fields of a command word decide its instruction, and the instruction its fields. -/
theorem decode_eq_iff_fields {v w : Word} : decode v = decode w ↔ cmdField v = cmdField w ∧ ieField v = ieField w := by
  constructor
  · intro h
    exact ⟨by rw [← decode_code, h, decode_code], by rw [← decode_ie, h, decode_ie]⟩
  · rintro ⟨hcmd, hie⟩
    rw [decode, decode, hcmd, hie]

/-- Settles O2. -/
theorem decodeReadsCmdAndIeOnly : Obligations.DecodeReadsCmdAndIeOnly := fun v w => by
  rw [decode_eq_iff_fields, BitVec.toNat_eq, cmdField_toNat, cmdField_toNat, ieField, ieField]

/-- Settles O3, word by word of the command map. -/
theorem commandWordsDecode : Obligations.CommandWordsDecode := by
  unfold Obligations.CommandWordsDecode
  decide

/-! ### The round-key blocks -/

/-- R450: the round-key material of a BcdTime of 8 bytes and a serial of 6, byte by byte. -/
theorem roundKey_getD {bt serial : Bytes} {n j : Nat} (hbt : bt.length = 8) (hserial : serial.length = 6) (hn : n ≤ 8)
    (hj : j < 16) :
    (roundKey bt n serial).getD j 0 =
      if j < n then bt.getD j 0 else if j < 8 then 0xAA#8 else if j < 12 then serial.getD (j - 6) 0 else 0xBB#8 := by
  have htime : (bt.take n).length = n := by rw [List.length_take]; omega
  have hpadded : (bt.take n ++ List.replicate (8 - n) 0xAA#8).length = 8 := by
    rw [List.length_append, List.length_replicate]; omega
  have hdigits : ((serial.drop 2).take 4).length = 4 := by rw [List.length_take, List.length_drop]; omega
  rw [roundKey]
  split_ifs with hinTime hinPad hinSerial
  · rw [List.append_assoc, List.append_assoc, List.getD_append _ _ _ _ (by omega)]
    simp only [List.getD_eq_getElem?_getD, List.getElem?_take_of_lt hinTime]
  · rw [List.append_assoc, List.getD_append _ _ _ _ (by omega), List.getD_append_right _ _ _ _ (by omega),
      List.getD_replicate _ (by omega)]
  · rw [List.append_assoc, List.getD_append_right _ _ _ _ (by omega), List.getD_append _ _ _ _ (by omega), hpadded]
    have hindex : 2 + (j - 8) = j - 6 := by omega
    simp only [List.getD_eq_getElem?_getD, List.getElem?_take_of_lt (show j - 8 < 4 by omega), List.getElem?_drop, hindex]
  · rw [List.getD_append_right _ _ _ _ (by rw [List.length_append]; omega), List.getD_replicate _ (by
      rw [List.length_append]; omega)]

/-- R451: how many bytes of BcdTime open the material of cascade round `r + 1`. -/
def prefixLength (r : Fin 5) : Fin 16 := [2, 3, 4, 5, 8].getD r 0

theorem prefixLength_le (r : Fin 5) : (prefixLength r).val ≤ 8 := by
  revert r
  decide

/-- R121, R451: the block of cascade round `r + 1` is the round-key material of its length in R451. -/
theorem rkBlock_genResults (p : Params) (inp : Inputs) (o : Results) (r : Fin 5) :
    rkBlock (genResults p inp o) r = packBlock (roundKey (instantTime p inp) (prefixLength r) (serialBytes inp)) := by
  fin_cases r <;> rfl

/-- R307: bytes 8 to 11 of a round-key block are bytes 2 to 5 of SERIALB, of which SERIAL0 holds the first two. -/
theorem serialOrPad_eq (inp : Inputs) {j : Nat} (h8 : 8 ≤ j) :
    (if j < 12 then (serialBytes inp).getD (j - 6) 0 else 0xBB#8) =
      if j < 10 then byteAt inp.serial0 (j - 6) else if j < 12 then byteAt inp.serial1 (j - 10) else 0xBB#8 := by
  by_cases h12 : j < 12
  · simp only [if_pos h12]
    interval_cases j <;> rfl
  · rw [if_neg h12, if_neg (by omega), if_neg h12]

/-- Settles O20: byte `j` of the packed block is byte `j` of the round-key material. -/
theorem roundKeyLayout : Obligations.RoundKeyLayout := by
  intro ie s n hs hv
  have ⟨_, _, _, htime⟩ := hv
  refine ⟨_, exec_gen_valid ie s n hs hv, fun r j => ?_⟩
  rw [completedWith, rkBlock_genResults, packBlock_byte, timeBytes_eq _ _ htime,
    roundKey_getD rfl rfl (prefixLength_le r) j.isLt]
  exact if_congr Iff.rfl rfl (ite_congr rfl (fun _ => rfl) fun h8 => serialOrPad_eq s.inp (not_lt.1 h8))

/-! ### WFI -/

/-- R814: a WFI at the head of the list is ready exactly while `irq` is high. -/
theorem hostReady_wfi {s : State} {rest : List BusOp} (hp : s.pending = .wfi :: rest) :
    hostReady s = true ↔ s.status.done ∧ s.ie := by
  simp only [hostReady, hp, irq, Bool.and_eq_true]

/-- R310: the host's turn ends a WFI and does nothing else. -/
theorem step_wfi {s u : State} (hu : hostNext s = some (.wfi, u)) : step s = .next u := by
  rw [step_host hu]
  rfl

/-- R815: a host that waits leaves every step of a `Busy` engine to it. -/
theorem engineNext_of_not_hostReady {s : State} {c : BitVec 4} {n : Nat} (hs : s.seq = .busy c n)
    (hr : ¬ hostReady s = true) : engineNext s = some s := by
  simp only [engineNext, hs, if_neg hr]

/-- R700: while `Idle` a host that waits leaves the state as it is. -/
theorem step_idle_of_not_hostReady {s : State} (hs : s.seq = .idle) (hr : ¬ hostReady s = true) : step s = .next s := by
  rcases agents s with ⟨op, u, hu, _⟩ | ⟨u, hu, _⟩ | ⟨_, _, _, hstep⟩
  · obtain ⟨_, _, hready, _⟩ := hostNext_some hu
    exact absurd hready hr
  · obtain ⟨_, ⟨c, n, hq⟩, _⟩ := engineNext_some hu
    cases hs.symm.trans hq
  · exact hstep

/-- R704, R700: the engine's step goes on and leaves the host's lists but for the choice that gave it the turn. -/
theorem step_engine_host_fields {s u : State} {c : BitVec 4} {n : Nat} (hs : s.seq = .busy c n)
    (hu : engineNext s = some u) :
    ∃ t, step s = .next t ∧ t.pending = u.pending ∧ t.turns = u.turns ∧ t.reads = u.reads := by
  rw [step_engine hs hu]
  split
  · obtain ⟨t, ht⟩ := exec_next (decode (c.setWidth 32)) u
    obtain ⟨_, hlists⟩ := exec_host_fields ht
    exact ⟨t, ht, hlists⟩
  · exact ⟨_, rfl, rfl, rfl, rfl⟩

/-- Settles O37, by whether `irq` is high and so the host ready. -/
theorem wfiWaitsForIrq : Obligations.WfiWaitsForIrq := by
  intro s rest hp
  have hready := hostReady_wfi hp
  refine ⟨fun hs => ?_, fun c n hs => ⟨fun hlow => ?_, fun hhigh ts ht => ?_⟩⟩
  · split
    · next hhigh => exact step_wfi (by simp only [hostNext, hp, hready.2 hhigh, hs, if_true])
    · next hlow => exact step_idle_of_not_hostReady hs (mt hready.1 hlow)
  · have hu := engineNext_of_not_hostReady hs (mt hready.1 hlow)
    exact ⟨step_engine hs hu, step_engine_host_fields hs hu⟩
  · exact step_wfi (by simp only [hostNext, hp, hready.2 hhigh, hs, ht, if_true])

/-! ### POLL -/

/-- R310: one iteration of a POLL that lands on a register records what it read, and ends when the condition holds. -/
theorem step_poll {s u : State} {addr off : Nat} {r : Reg} {mask val : Word}
    (hu : hostNext s = some (.poll addr mask val, u)) (hl : landing u.params addr 4 = .reg off r) :
    step s = .next (record addr (readReg r s) none
      { u with pending := if readReg r s &&& mask = val then u.pending else s.pending }) := by
  have hread : readReg r { u with pending := s.pending } = readReg r s := readReg_hostNext hu r
  rw [step_host hu]
  simp only [hostMove]
  rw [hostRead_reg (s := { u with pending := s.pending }) hl, hread, resolve_answer]
  split <;> rfl

/-- Settles O45: a POLL of a row's register reads what the row says. -/
theorem pollRepeatsRead : Obligations.PollRepeatsRead := by
  intro s u row mask val hrow hu
  obtain ⟨_, _, _, _, _, _, hreads⟩ := hostNext_fields hu
  have hagree := rowAgrees_registerRows s row hrow
  rw [step_poll hu (landing_hostNext hu hagree.1), readReg_eq_rowRead hagree, ← hreads]
  rfl

end Sys2Proof.Machine
end

section
/-! SUPPORT. The statements of 40_bcd_codec.md: what the codec commands BCDENC, BCDDEC and TIME leave at completion (R405 to
R407), and the minutes that share one BcdTime (R402, R409). -/

namespace Sys2Proof.Machine

/-! ### BCDENC and BCDDEC -/

/-- R405, in arithmetic on OPND. -/
theorem bcdencRule_eq (s : State) :
    bcdencRule s =
      if s.inp.opnd.toNat % 256 > 99 then completedWith .bcdDom s.out s
      else completedWith .noError
        { s.out with
          result := BitVec.ofNat 32 (16 * (s.inp.opnd.toNat % 256 / 10) + s.inp.opnd.toNat % 256 % 10) } s := by
  simp only [bcdencRule, operand_toNat]
  split_ifs with hdom
  · rfl
  · have hbyte : (bcd (s.inp.opnd.toNat % 256)).setWidth 32 =
        BitVec.ofNat 32 (16 * (s.inp.opnd.toNat % 256 / 10) + s.inp.opnd.toNat % 256 % 10) := by
      rw [bcd_packed _ (by omega), packed, BitVec.setWidth_ofNat_of_le_of_lt (by omega) (by omega)]
    rw [hbyte]
    rfl

/-- R406, in arithmetic on OPND. -/
theorem bcddecRule_eq (s : State) :
    bcddecRule s =
      if s.inp.opnd.toNat / 16 % 16 ≤ 9 ∧ s.inp.opnd.toNat % 16 ≤ 9 then
        completedWith .noError
          { s.out with result := BitVec.ofNat 32 (10 * (s.inp.opnd.toNat / 16 % 16) + s.inp.opnd.toNat % 16) } s
      else completedWith .bcdDig s.out s := by
  have hhigh : s.inp.opnd.toNat % 256 / 16 = s.inp.opnd.toNat / 16 % 16 := by omega
  have hlow : s.inp.opnd.toNat % 256 % 16 = s.inp.opnd.toNat % 16 := by omega
  simp only [bcddecRule, bcdValid_iff, unbcd, highNibble_toNat, lowNibble_toNat, operand_toNat, hhigh, hlow]
  rfl

/-- R704: a codec command in flight completes by its own rule. -/
theorem exec_bcdenc_own {s : State} {n : Nat} (hs : s.seq = .busy 3 n) (ie : Bool) :
    exec (.bcdenc ie) s = .next (bcdencRule s) := exec_own (.bcdenc ie) hs (by simp [Instr.code])

theorem exec_bcddec_own {s : State} {n : Nat} (hs : s.seq = .busy 4 n) (ie : Bool) :
    exec (.bcddec ie) s = .next (bcddecRule s) := exec_own (.bcddec ie) hs (by simp [Instr.code])

/-- Settles O7. -/
theorem bcdencResult : Obligations.BcdencResult :=
  ⟨fun v hv => decode_of_cmd v 3 (by omega) hv, fun ie s _ hs => by rw [exec_bcdenc_own hs, bcdencRule_eq]⟩

/-- Settles O8. -/
theorem bcddecResult : Obligations.BcddecResult :=
  ⟨fun v hv => decode_of_cmd v 4 (by omega) hv, fun ie s _ hs => by rw [exec_bcddec_own hs, bcddecRule_eq]⟩

/-- R405: RESULT after a BCDENC of an operand in the domain. -/
theorem bcdencRule_result {s : State} (h : s.inp.opnd.toNat ≤ 99) :
    (bcdencRule s).out.result = BitVec.ofNat 32 (16 * (s.inp.opnd.toNat / 10) + s.inp.opnd.toNat % 10) := by
  have hbyte : s.inp.opnd.toNat % 256 = s.inp.opnd.toNat := by omega
  rw [bcdencRule_eq, hbyte, if_neg (by omega)]
  rfl

/-- R401: BCDDEC of an OPND that holds the packed digits of `n` completes with RESULT `n` and no error. -/
theorem bcddecRule_of_packed {s : State} {n : Nat} (hn : n ≤ 99) (h : s.inp.opnd.toNat = 16 * (n / 10) + n % 10) :
    bcddecRule s = completedWith .noError { s.out with result := BitVec.ofNat 32 n } s := by
  have hhigh : s.inp.opnd.toNat / 16 % 16 = n / 10 := by omega
  have hlow : s.inp.opnd.toNat % 16 = n % 10 := by omega
  rw [bcddecRule_eq, hhigh, hlow, if_pos (by omega), Nat.div_add_mod]

/-- Settles O9: the packed digits that BCDENC leaves in RESULT are what BCDDEC decodes. -/
theorem bcdRoundTripThroughRegisters : Obligations.BcdRoundTripThroughRegisters := by
  intro s u m n ie je hs hu hle
  refine ⟨_, exec_bcdenc_own hs ie, fun hopnd => ?_⟩
  rw [bcdencRule_result hle] at hopnd
  have hpacked : u.inp.opnd.toNat = 16 * (s.inp.opnd.toNat / 10) + s.inp.opnd.toNat % 10 := by
    rw [hopnd, BitVec.toNat_ofNat]
    omega
  refine ⟨_, exec_bcddec_own hu je, ?_⟩
  rw [bcddecRule_of_packed hle hpacked]
  exact ⟨by simp [completedWith], rfl⟩

/-! ### TIME -/

/-- R13: a word whose last two bytes are 0. -/
theorem be32_zero_zero (a b : Byte) : be32 a b 0 0 = a ++ b ++ 0#16 := BitVec.append_assoc

/-- R113, R407: what a TIME of a valid instant writes, in the arithmetic of the fields. -/
theorem timeResults_eq (p : Params) (i : Inputs) (o : Results) (h : validTime i) :
    timeResults p i o =
      { o with
        bcdTime0 := packed (yearOf i % 100) ++ packed (yearOf i / 100 % 100) ++ packed (monthOf i) ++ packed (dayOf i)
        bcdTime1 := packed (hourOf i) ++ packed (maskedMinute p i) ++ 0#16
        offset := BitVec.ofNat 32 (offsetArith p i) } := by
  rw [← be32_zero_zero, timeResults, timeBytes_eq p i h, offsetOf_eq]
  rfl

/-- Settles O10, by whether the instant is valid. -/
theorem timeResult : Obligations.TimeResult := by
  refine ⟨fun v hv => decode_of_cmd v 2 (by omega) hv, fun ie s n hs => ?_⟩
  rw [exec_own (.time ie) hs (by simp [Instr.code])]
  simp only [ruleOf, timeRule, timeOk_iff]
  split_ifs with hvalid
  · rw [timeResults_eq _ _ _ hvalid]
    rfl
  · rfl

/-! ### Minute buckets -/

section
variable {p : Params} {i : Inputs} {x : Word}
  (hbucket : if sixtySeconds p i then minuteOf { i with time1 := x } / 4 = minuteOf i / 4
    else minuteOf { i with time1 := x } / 2 = minuteOf i / 2)
include hbucket

/-- R402: the minutes of one bucket have one masked minute. -/
theorem maskedMinute_of_bucket : maskedMinute p { i with time1 := x } = maskedMinute p i := by
  unfold maskedMinute
  split_ifs at hbucket ⊢ <;> rw [hbucket]

/-- R403, R409: instants in one bucket of the same hour have one BcdTime. -/
theorem timeBytes_of_bucket (hhigh : x.toNat / 2 ^ 8 = i.time1.toNat / 2 ^ 8) :
    timeBytes p { i with time1 := x } = timeBytes p i := by
  have hmonth : monthOf { i with time1 := x } = monthOf i := by simp only [monthOf]; omega
  have hday : dayOf { i with time1 := x } = dayOf i := by simp only [dayOf]; omega
  have hhour : hourOf { i with time1 := x } = hourOf i := by simp only [hourOf]; omega
  simp only [timeBytes, hmonth, hday, hhour, maskedMinute_of_bucket hbucket]
  rfl

end

/-- Settles O27: BcdTime is all that BCDTIME and the cascade read of TIME1. -/
theorem minuteBucketsShareCascade : Obligations.MinuteBucketsShareCascade := by
  intro ie s x n hs hv hx hhigh hbucket
  have ⟨_, _, _, htime⟩ := hv
  have ⟨_, _, _, htime'⟩ := hx
  have hbcd : instantTime s.params s.inp = instantTime s.params { s.inp with time1 := x } := by
    rw [timeBytes_eq _ _ htime, timeBytes_eq _ _ htime', timeBytes_of_bucket hbucket hhigh]
  have hcascade : genCascade s.params s.inp = genCascade s.params { s.inp with time1 := x } :=
    congrArg (cascade s.inp.seed · (serialBytes s.inp)) hbcd
  exact ⟨_, _, exec_gen_valid ie s n hs hv, exec_gen_valid ie { s with inp := { s.inp with time1 := x } } n hs hx,
    congrArg (packWord · 0) hbcd, congrArg (packWord · 1) hbcd, congrArg CascadeOut.rk0 hcascade,
    congrArg CascadeOut.rk1 hcascade, congrArg CascadeOut.rk2 hcascade, congrArg CascadeOut.rk3 hcascade,
    congrArg CascadeOut.rk4 hcascade, congrArg CascadeOut.k0 hcascade, congrArg CascadeOut.k1 hcascade⟩

end Sys2Proof.Machine
end

section
/-! SUPPORT. The statement of 41_round_key.md: the round-key material reads the last eight digits of the serial alone (R450,
R452), and a GEN reads the serial in no other place (R706). -/

namespace Sys2Proof.Machine

/-! ### The last eight digits of the serial -/

/-- R203: the low half of a word is its last two bytes. -/
theorem byteAt_eq_of_low_half {v w : Word} (h : v.toNat % 2 ^ 16 = w.toNat % 2 ^ 16) :
    byteAt v 2 = byteAt w 2 ∧ byteAt v 3 = byteAt w 3 := by
  simp only [BitVec.toNat_eq, byteAt_toNat, Nat.reduceMod, Nat.reduceMul, Nat.reduceSub, Nat.reducePow] at h ⊢
  omega

/-- R107, R452: past its first two bytes the serial is the low half of SERIAL0, then SERIAL1. -/
theorem serialBytes_drop_two (i : Inputs) :
    (serialBytes i).drop 2 = [byteAt i.serial0 2, byteAt i.serial0 3, byteAt i.serial1 0, byteAt i.serial1 1] := rfl

/-- R450, R451: the cascade reads its serial from the third byte on. -/
theorem cascade_congr_serial (seed : Block) (bt : Bytes) {serial serial' : Bytes} (h : serial.drop 2 = serial'.drop 2) :
    cascade seed bt serial = cascade seed bt serial' := by
  have hblock (n : Nat) : roundBlock bt n serial = roundBlock bt n serial' := by
    rw [roundBlock, roundBlock, roundKey, roundKey, h]
  simp only [cascade, hblock]

section
variable (p : Params) {i : Inputs} {x : Word} (hlow : x.toNat % 2 ^ 16 = i.serial0.toNat % 2 ^ 16)
include hlow

theorem genCascade_of_serial_low : genCascade p { i with serial0 := x } = genCascade p i := by
  obtain ⟨h2, h3⟩ := byteAt_eq_of_low_half hlow
  exact cascade_congr_serial _ _ (by simp only [serialBytes_drop_two, h2, h3])

/-- R706: the word is cut from the cascade's output, at an offset that no serial moves. -/
theorem genWord_of_serial_low : genWord p { i with serial0 := x } = genWord p i := by
  have hoffset : genOffset p { i with serial0 := x } = genOffset p i := rfl
  rw [genWord, genWord, genCascade_of_serial_low p hlow, hoffset]

theorem genOutcome_of_serial_low : genOutcome p { i with serial0 := x } = genOutcome p i := by
  rw [genOutcome, genWord_of_serial_low p hlow]
  rfl

theorem genResults_of_serial_low (o : Results) : genResults p { i with serial0 := x } o = genResults p i o := by
  rw [genResults, genCascade_of_serial_low p hlow, genWord_of_serial_low p hlow]
  rfl

end

/-- Settles O26: the serial reaches a GEN's results and its completion code through the cascade alone. -/
theorem firstFourSerialDigitsIgnored : Obligations.FirstFourSerialDigitsIgnored := fun ie s x n hs hv hx hlow =>
  ⟨_, _, exec_gen_valid ie s n hs hv, exec_gen_valid ie { s with inp := { s.inp with serial0 := x } } n hs hx,
    (genResults_of_serial_low s.params hlow s.out).symm,
    congrArg (completed · s.status) (genOutcome_of_serial_low s.params hlow).symm⟩

end Sys2Proof.Machine
end

section
/-! SUPPORT. The statements of 42_aes128.md: the S-box as an affine map (R502), the four transformations byte by byte (R503 to
R506), the words of the key expansion (R507), the ten rounds (R509) and what AESENC leaves at completion (R511). -/

namespace Sys2Proof.Machine

/-! ### AESENC and the ten rounds -/

/-- R511: the SEED bits of LOADED, as a number. -/
theorem seedOk_iff_loaded (i : Inputs) : seedOk i = true ↔ i.loaded.toNat % 16 = 15 := by
  simp [seedOk, BitVec.toNat_eq]

/-- R511, in arithmetic on LOADED. -/
theorem aesencRule_eq (s : State) :
    aesencRule s =
      if s.inp.loaded.toNat % 16 = 15 then
        completedWith .noError { s.out with auxOut := aes128 s.inp.seed s.inp.auxBlk } s
      else completedWith .seed s.out s := by
  simp only [aesencRule, seedOk_iff_loaded]
  rfl

/-- One of the rounds 1 to 9 of R509, with the round key `k`. -/
def fullRound (s k : Block) : Block := addRoundKey k (mixColumns (shiftRows (subBytes s)))

/-- R509: a round that is not the last is a full one. -/
theorem aesRounds_cons {ks : List Block} (h : ks ≠ []) (s k : Block) :
    aesRounds s (k :: ks) = aesRounds (fullRound s k) ks := by
  cases ks with
  | nil => exact absurd rfl h
  | cons k' ks => rfl

/-- R509: full rounds, then the last one, which has no MixColumns. -/
theorem aesRounds_append_last (ks : List Block) (k s : Block) :
    aesRounds s (ks ++ [k]) = addRoundKey k (shiftRows (subBytes (ks.foldl fullRound s))) := by
  induction ks generalizing s with
  | nil => rfl
  | cons k' ks ih => exact (aesRounds_cons (by simp) s k').trans (ih _)

/-- R506, R507: the round keys are the groups 1 to 10 of the expanded key. -/
theorem roundKeys_eq_keyGroups (key : Block) :
    roundKeys key = [1, 2, 3, 4, 5, 6, 7, 8, 9].map (keyGroup (keyWords key)) ++ [keyGroup (keyWords key) 10] := rfl

/-- R509, with the round keys named by their words. -/
theorem aes128_eq_rounds (key block : Block) :
    aes128 key block =
      addRoundKey (keyGroup (keyWords key) 10) (shiftRows (subBytes
        ([1, 2, 3, 4, 5, 6, 7, 8, 9].foldl (fun s k => fullRound s (keyGroup (keyWords key) k))
          (addRoundKey (keyGroup (keyWords key) 0) block)))) := by
  rw [aes128, roundKeys_eq_keyGroups, aesRounds_append_last, List.foldl_map]
  rfl

/-- Settles O11. -/
theorem aesencResult : Obligations.AesencResult := by
  refine ⟨fun v hv => decode_of_cmd v 5 (by omega) hv, fun ie s n hs => ?_, aes128_eq_rounds⟩
  rw [exec_own (.aesenc ie) hs (by simp [Instr.code]), ← aesencRule_eq]
  rfl

/-! ### The key expansion -/

/-- R507: each round key comes from the one before it. -/
theorem expandFrom_getD_succ (rs : List Byte) (key d : Block) {k : Nat} (hk : k < rs.length) :
    (key :: expandFrom key rs).getD (k + 1) d = nextKey (rs.getD k 0) ((key :: expandFrom key rs).getD k d) := by
  induction rs generalizing key k with
  | nil => exact absurd hk (Nat.not_lt_zero k)
  | cons r rs ih =>
    cases k with
    | zero => rfl
    | succ k => exact ih (nextKey r key) (Nat.lt_of_succ_lt_succ hk)

theorem keyGroup_succ (key : Block) {k : Nat} (hk : k < 10) :
    keyGroup (keyWords key) (k + 1) = nextKey (rcons.getD k 0) (keyGroup (keyWords key) k) := by
  have hgroup (j : Nat) (hj : j < 11) := keyGroup_keyWords key ⟨j, hj⟩
  rw [hgroup (k + 1) (by omega), hgroup k (by omega)]
  exact expandFrom_getD_succ rcons key key hk

/-- R507: within a group each word adds the word before it; the first adds `keyCore` of the last word of the group before. -/
theorem nextKey_words (r : Byte) (k : Block) :
    (nextKey r k).w0 = k.w0 ^^^ keyCore r k.w3 ∧ (nextKey r k).w1 = k.w1 ^^^ (nextKey r k).w0
      ∧ (nextKey r k).w2 = k.w2 ^^^ (nextKey r k).w1 ∧ (nextKey r k).w3 = k.w3 ^^^ (nextKey r k).w2 :=
  ⟨rfl, rfl, rfl, rfl⟩

/-- Settles O12: word `i` is word `i % 4` of group `i / 4`, and `nextKey_words` says how a group follows from the one before. -/
theorem keyExpansionWords : Obligations.KeyExpansionWords := by
  rintro key w rfl
  refine ⟨rfl, rfl, fun i h4 h44 => ?_⟩
  obtain ⟨k, j, rfl, hj⟩ : ∃ k j, i = 4 * (k + 1) + j ∧ j < 4 := ⟨i / 4 - 1, i % 4, by omega, by omega⟩
  have hk : k < 10 := by omega
  have hwords := nextKey_words (rcons.getD k 0) (keyGroup (keyWords key) k)
  rw [← keyGroup_succ key hk] at hwords
  obtain ⟨h0, h1, h2, h3⟩ := hwords
  have hdiv : (4 * (k + 1) + j) / 4 - 1 = k := by omega
  have hmod : (4 * (k + 1) + j) % 4 = j := by omega
  have hsub : 4 * (k + 1) + j - 4 = 4 * k + j := by omega
  rw [hdiv, hmod, hsub]
  interval_cases j
  · exact h0
  · exact h1
  · exact h2
  · exact h3

/-! ### The transformations -/

section
variable (s k : Block) (c : Fin 4)

theorem getWord_subBytes : getWord (subBytes s) c = subWord (getWord s c) := by fin_cases c <;> rfl

theorem getWord_mixColumns : getWord (mixColumns s) c = mixWord (getWord s c) := by fin_cases c <;> rfl

theorem getWord_addRoundKey : getWord (addRoundKey k s) c = getWord s c ^^^ getWord k c := by fin_cases c <;> rfl

/-- R504: byte `r` of the new column `c` comes from column `c + r`. -/
theorem getWord_shiftRows :
    getWord (shiftRows s) c = be32 (byteAt (getWord s c) 0) (byteAt (getWord s (c + 1)) 1)
      (byteAt (getWord s (c + 2)) 2) (byteAt (getWord s (c + 3)) 3) := by fin_cases c <;> rfl

end

theorem byteAt_subWord (w : Word) (r : Fin 4) : byteAt (subWord w) r = sbox (byteAt w r) := by
  rw [subWord, byteAt_be32]
  fin_cases r <;> rfl

theorem byteAt_xor (v w : Word) (j : Nat) : byteAt (v ^^^ w) j = byteAt v j ^^^ byteAt w j := BitVec.extractLsb'_xor

/-- R505: row `r` of the matrix is row 0 moved right by `r` places. -/
theorem byteAt_mixWord (w : Word) (r : Fin 4) :
    byteAt (mixWord w) r = gmul (byteAt w r) 2 ^^^ gmul (byteAt w (r + 1 : Fin 4)) 3 ^^^ byteAt w (r + 2 : Fin 4)
      ^^^ byteAt w (r + 3 : Fin 4) := by
  rw [mixWord, mixColumn, byteAt_be32]
  fin_cases r <;> dsimp <;> ac_rfl

/-- Settles O13. -/
theorem aesTransformationsByByte : Obligations.AesTransformationsByByte := by
  intro s k r c
  refine ⟨?_, ?_, ?_, ?_⟩
  · rw [getWord_subBytes, byteAt_subWord]
  · rw [getWord_shiftRows, byteAt_be32]
    fin_cases r
    · exact congrArg (fun x => byteAt (getWord s x) 0) (add_zero c).symm
    · rfl
    · rfl
    · rfl
  · rw [getWord_addRoundKey, byteAt_xor]
  · rw [getWord_mixColumns, byteAt_mixWord]

/-! ### The S-box -/

/-- The inverse of the affine map of R502. -/
def affineInverse (z : Byte) : Byte := z.rotateLeft 1 ^^^ z.rotateLeft 3 ^^^ z.rotateLeft 6 ^^^ 0x05

/-- R502: the affine map undoes `affineInverse`. -/
theorem affine_affineInverse : ∀ z : Byte,
    z = affineInverse z ^^^ (affineInverse z).rotateLeft 1 ^^^ (affineInverse z).rotateLeft 2
      ^^^ (affineInverse z).rotateLeft 3 ^^^ (affineInverse z).rotateLeft 4 ^^^ 0x63 := by decide

/-- R502: what the table holds is the inverse, under the affine map. -/
theorem gmul_affineInverse_sbox : ∀ x : Byte, x ≠ 0 → gmul x (affineInverse (sbox x)) = 1 := by decide

theorem affineInverse_sbox_zero : affineInverse (sbox 0) = 0 := by decide

/-- Settles O14: the inverse of `x` is read off the table through `affineInverse`. -/
theorem sboxIsAffineOfInverse : Obligations.SboxIsAffineOfInverse := fun x =>
  ⟨affineInverse (sbox x), fun hx => hx ▸ affineInverse_sbox_zero, gmul_affineInverse_sbox x,
    affine_affineInverse (sbox x)⟩

end Sys2Proof.Machine
end

section
/-! SUPPORT. The statements of 43_cascade.md: the chain of the five rounds in the registers (R551, R552) and the registers that a
GEN does not read (R555, R711). -/

namespace Sys2Proof.Machine

/-! ### The chain of the cascade -/

section
variable (seed : Block) (bt serial : Bytes)

/-- R551, R552: round 4, the last to write `k1`, keyed by the rounds before it back to the seed. -/
theorem cascade_k1 : (cascade seed bt serial).k1 =
    aes128 (aes128 (aes128 (aes128 seed (cascade seed bt serial).rk0) (cascade seed bt serial).rk1)
      (cascade seed bt serial).rk2) (cascade seed bt serial).rk3 := rfl

/-- R551, R552: round 5, the last to write `k0`, keyed by round 4. -/
theorem cascade_k0 : (cascade seed bt serial).k0 =
    aes128 (cascade seed bt serial).k1 (cascade seed bt serial).rk4 := rfl

end

/-- Settles O19: the registers are the cascade's own blocks. -/
theorem cascadeChainInRegisters : Obligations.CascadeChainInRegisters := fun ie s n hs hv =>
  ⟨_, exec_gen_valid ie s n hs hv, cascade_k1 s.inp.seed (instantTime s.params s.inp) (serialBytes s.inp),
    cascade_k0 s.inp.seed (instantTime s.params s.inp) (serialBytes s.inp)⟩

/-! ### What a GEN does not read -/

/-- The same input registers but for OPND and AUXBLK. -/
def withUnread (x : Word) (b : Block) (i : Inputs) : Inputs := { i with opnd := x, auxBlk := b }

section
variable (p : Params) (x : Word) (b : Block) (i : Inputs)

/-- R707: no check reads OPND or AUXBLK. -/
theorem genCheck_withUnread : genCheck (withUnread x b i) = genCheck i := rfl

theorem genOutcome_withUnread : genOutcome p (withUnread x b i) = genOutcome p i := rfl

theorem genResults_withUnread (o : Results) : genResults p (withUnread x b i) o = genResults p i o := rfl

/-- R706: a GEN reads no result register, and writes each but RESULT and AUXOUT. -/
theorem genResults_of_kept (o o' : Results) :
    { genResults p i o with result := o'.result, auxOut := o'.auxOut } = genResults p i o' := rfl

end

/-- Settles O25: the two inputs differ in OPND and AUXBLK alone, so both GENs pass validation or both fail the same check. -/
theorem genDependsOnInputsOnly : Obligations.GenDependsOnInputsOnly := by
  intro ie je s u m n hs hu hp hloaded hflags hpin hserial0 hserial1 htime0 htime1 hseed
  obtain ⟨x, b, hi⟩ : ∃ x b, u.inp = withUnread x b s.inp :=
    ⟨u.inp.opnd, u.inp.auxBlk, by
      rw [withUnread, hloaded, hflags, hpin, hserial0, hserial1, htime0, htime1, hseed]⟩
  have hcheck : genCheck u.inp = genCheck s.inp := by rw [hi, genCheck_withUnread]
  by_cases hv : validGen s.inp
  · have hvu : validGen u.inp := (genCheck_noError _).1 (hcheck.trans (genCheck_of_valid _ hv))
    have hcode : genOutcome s.params s.inp = genOutcome u.params u.inp := by rw [hp, hi, genOutcome_withUnread]
    have hout : genResults u.params u.inp u.out = genResults s.params s.inp u.out := by
      rw [hp, hi, genResults_withUnread]
    exact ⟨_, _, exec_gen_valid ie s m hs hv, exec_gen_valid je u n hu hvu, hcode,
      fun _ => (genResults_of_kept s.params s.inp s.out _).trans hout.symm, rfl, rfl, rfl⟩
  · have hfail : genCheck s.inp ≠ .noError := mt (genCheck_noError _).1 hv
    exact ⟨_, _, exec_gen_invalid ie s m hs _ hfail rfl, exec_gen_invalid je u n hu _ hfail hcheck, rfl,
      fun h => absurd h hv, rfl, rfl, rfl⟩

end Sys2Proof.Machine
end

section
/-! SUPPORT. The statements of 44_extract.md: when a GEN underflows (R603, R604), how many characters its code has (R607), and
the code of the neutral PIN (R608). -/

namespace Sys2Proof.Machine

/-! ### NDIG, LEN and the completion code -/

/-- R603: a 32-bit word has at most ten digits. -/
theorem dec_word_length_le (w : Word) : (dec w.toNat).length ≤ 10 :=
  (dec_length_lt 9 w.toNat).2 (w.isLt.trans (by decide))

section
variable (p : Params) (i : Inputs) (o : Results)

/-- R117, R604. -/
theorem genResults_len : (genResults p i o).digits.len.toNat = lenOf p i := by
  have ⟨_, hle⟩ := lenOf_bounds p i
  change (BitVec.ofNat 4 (genLen p i)).toNat = lenOf p i
  rw [genLen_eq, BitVec.toNat_ofNat, Nat.mod_eq_of_lt (by omega)]

/-- R117, R603: the four bits of NDIG hold every digit count. -/
theorem genResults_ndig : (genResults p i o).digits.ndig.toNat = (dec (genWord p i).toNat).length := by
  have hle := dec_word_length_le (genWord p i)
  change (BitVec.ofNat 4 (dec (genWord p i).toNat).length).toNat = _
  rw [BitVec.toNat_ofNat, Nat.mod_eq_of_lt (by omega)]

theorem genOutcome_underflow_iff : genOutcome p i = .underflow ↔ underflows (genWord p i) (lenOf p i) = true := by
  rw [genOutcome, genLen_eq]
  split <;> simp [*]

theorem genOutcome_cases : genOutcome p i = .underflow ∨ genOutcome p i = .noError := by
  rw [genOutcome]
  exact ite_eq_or_eq _ _ _

end

/-- Settles O22: NDIG and LEN are the two numbers that the completion code compares. -/
theorem underflowExactly : Obligations.UnderflowExactly := by
  intro ie s n hs hv
  refine ⟨_, exec_gen_valid ie s n hs hv, genResults_len _ _ _, genOutcome_cases _ _, ?_, ?_⟩
  · rw [completedWith, genResults_ndig, genResults_len]
    exact (genOutcome_underflow_iff _ _).trans decide_eq_true_iff
  · rw [completedWith, genResults_len]
    exact (genOutcome_underflow_iff _ _).trans (underflows_iff _ _ (lenOf_bounds _ _).1)

/-! ### CHARLEN -/

/-- R607: no more sums have two digits than there are sums. -/
theorem largeSums_le (i : Inputs) (w len : Nat) :
    ((List.range len).filter (fun k => 10 ≤ sumAt i w len k)).length ≤ len :=
  (List.length_filter_le _ _).trans_eq List.length_range

/-- R117, R607: the five bits of CHARLEN hold the length of every code. -/
theorem genResults_charLen (p : Params) (i : Inputs) (o : Results) (hpin : validPin i)
    (hu : underflows (genWord p i) (lenOf p i) = false) :
    (genResults p i o).digits.charLen.toNat = lenOf p i +
      ((List.range (lenOf p i)).filter (fun k => 10 ≤ sumAt i (genWord p i).toNat (lenOf p i) k)).length := by
  have ⟨_, hle⟩ := lenOf_bounds p i
  have hlarge := largeSums_le i (genWord p i).toNat (lenOf p i)
  change (BitVec.ofNat 5 (codeDigits (genSums (genWord p i) (genLen p i) (pinDigits i))).length).toNat = _
  rw [genLen_eq, codeDigits_genSums p i hpin hu, flatMap_sumDigits_length, List.length_range, BitVec.toNat_ofNat,
    Nat.mod_eq_of_lt (by omega)]

/-- Settles O23: each sum of 10 or more adds one character, and there are at most eight sums. -/
theorem charLenCountsLargeSums : Obligations.CharLenCountsLargeSums := by
  intro ie s n hs hv
  have ⟨_, _, hpin, _⟩ := hv
  refine ⟨_, exec_gen_valid ie s n hs hv, fun herr => ?_⟩
  have hcount := genResults_charLen s.params s.inp s.out hpin (genOutcome_noError s.params s.inp herr)
  refine ⟨hcount, hcount.trans_le ?_⟩
  have ⟨_, hle⟩ := lenOf_bounds s.params s.inp
  have hlarge := largeSums_le s.inp (genWord s.params s.inp).toNat (lenOf s.params s.inp)
  omega

/-! ### The neutral PIN -/

/-- R607: numbers below 10 are their own renderings. -/
theorem codeDigits_of_lt_ten {sums : List Nat} (h : ∀ d ∈ sums, d < 10) : codeDigits sums = sums := by
  have hdec : ∀ d ∈ sums, dec d = [d] := fun d hd => dec_small (h d hd)
  rw [codeDigits, List.flatMap_congr hdec, List.flatMap_singleton']

/-- R106, R606: a PIN of 0 adds nothing to the digits. -/
theorem sumAt_of_pin_zero {i : Inputs} (hpin : i.pin = 0) (w len k : Nat) :
    sumAt i w len k = w / 10 ^ (len - 1 - k) % 10 := by
  rw [sumAt, pinNibble, hpin]
  simp

/-- R608: with PIN 0, CODE is the list of the sums. -/
theorem codeDigits_genSums_of_pin_zero (p : Params) {i : Inputs} (hpin : i.pin = 0)
    (hu : underflows (genWord p i) (lenOf p i) = false) :
    codeDigits (genSums (genWord p i) (genLen p i) (pinDigits i)) =
      (List.range (lenOf p i)).map (sumAt i (genWord p i).toNat (lenOf p i)) := by
  rw [genLen_eq, genSums_eq i _ _ hu (lenOf_bounds p i).2]
  refine codeDigits_of_lt_ten fun d hd => ?_
  obtain ⟨k, -, rfl⟩ := List.mem_map.1 hd
  rw [sumAt_of_pin_zero hpin]
  omega

/-- R119, R607: character `k` of a code, as its register holds it. -/
theorem charBlock_byte {code : List Nat} {k : Nat} (hk : k < code.length) (h16 : k < 16) :
    byteAt (getWord (packBlock (charBytes code)) (Fin.ofNat 4 (k / 4))) k = ascii code[k] := by
  rw [packBlock_byte _ ⟨k, h16⟩, charBytes, getD_pad]
  simp [hk]

/-- R14. -/
theorem ascii_toNat {d : Nat} (hd : d < 10) : (ascii d).toNat = 0x30 + d := by
  rw [ascii, BitVec.toNat_ofNat, Nat.mod_eq_of_lt (by omega)]

/-- Settles O24: every sum is a digit of WORD, so it is one character. -/
theorem neutralPin : Obligations.NeutralPin := by
  intro ie s n hs hv hpin
  refine ⟨_, exec_gen_valid ie s n hs hv, fun herr => ?_⟩
  have hcode := codeDigits_genSums_of_pin_zero s.params hpin (genOutcome_noError s.params s.inp herr)
  have ⟨_, hle⟩ := lenOf_bounds s.params s.inp
  simp only [completedWith, genResults, genWrites, hcode]
  refine ⟨?_, fun k hk => ?_⟩
  · rw [List.length_map, List.length_range, BitVec.toNat_ofNat, Nat.mod_eq_of_lt (by omega)]
  · rw [charBlock_byte (by simpa using hk) (by omega), List.getElem_map, List.getElem_range, sumAt_of_pin_zero hpin,
      ascii_toNat (by omega)]

end Sys2Proof.Machine
end

section
/-! SUPPORT. The statement of 45_flags.md: the two fields of the flags word (R651, R652) as quotients and remainders. -/

namespace Sys2Proof.Machine

/-- R651, R652: shifting a word right and keeping the `n` low bits reads a field of `n` bits. -/
theorem toNat_ushiftRight_and_of_lowMask {w : Nat} (f mask : BitVec w) (k n : Nat) (hmask : mask.toNat = 2 ^ n - 1) :
    ((f >>> k) &&& mask).toNat = f.toNat / 2 ^ k % 2 ^ n := by
  rw [BitVec.toNat_and, BitVec.toNat_ushiftRight, Nat.shiftRight_eq_div_pow, hmask, Nat.and_two_pow_sub_one_eq_mod]

/-- R651: the digit-count field has three bits. -/
theorem digitCount_eq (p : Params) (f : BitVec 16) : digitCount p f = f.toNat / 2 ^ p.digitShift % 8 :=
  toNat_ushiftRight_and_of_lowMask f 0b111#16 p.digitShift 3 rfl

/-- R652: the interval-selector field has two bits. -/
theorem intervalSel_eq (p : Params) (f : BitVec 16) : intervalSel p f = f.toNat / 2 ^ p.intervalShift % 4 :=
  toNat_ushiftRight_and_of_lowMask f 0b11#16 p.intervalShift 2 rfl

/-- R652: `cad60` is set by any nonzero selector. -/
theorem interval60_iff (p : Params) (f : BitVec 16) : interval60 p f = true ↔ intervalSel p f ≠ 0 :=
  decide_eq_true_iff

/-- Settles O15: LEN and `cad60` follow from the two fields. -/
theorem flagsFields : Obligations.FlagsFields := by
  intro p f
  have hlen : outLen p f = f.toNat / 2 ^ p.digitShift % 8 + 1 := congrArg (· + 1) (digitCount_eq p f)
  have hcad : interval60 p f = true ↔ f.toNat / 2 ^ p.intervalShift % 4 ≠ 0 := by
    rw [interval60_iff, intervalSel_eq]
  exact ⟨digitCount_eq p f, hlen, intervalSel_eq p f, hcad⟩

end Sys2Proof.Machine
end

section
/-! SUPPORT. The statements of 46_control.md: acceptance of a command word (R701 to R703), how a GEN completes (R604, R706,
R707), ZEROIZE and the reserved codes (R708, R709), how long a command stays in flight (R700, R705, R908), and the writes
that a `Busy` engine drops (R703, R812). -/

namespace Sys2Proof.Machine

/-! ### Acceptance -/

/-- R701: the latency of each command code. -/
theorem latency_eq (l : Latencies) {c : BitVec 4} (hc : c ≠ 0) :
    latency l c = if c = 1 then l.gen else if c = 2 then l.time else if c = 3 then l.bcdenc else if c = 4 then l.bcddec
      else if c = 5 then l.aesenc else if c = 6 then l.zeroize else l.rsvd := by
  unfold latency
  split <;> simp_all

/-- Settles O4: an accepted command starts with the latency of its code. -/
theorem commandAccepted : Obligations.CommandAccepted := by
  intro i s hs hc
  rw [exec_idle i hs hc, accept, latency_eq _ hc]

/-- R301, R702: the command words with CMD 0. -/
theorem decode_noCmd {v : Word} (hv : v.toNat % 16 = 0) : decode v = .noCmd (v.getLsbD 8) :=
  decode_of_cmd v 0 (by omega) hv

/-- Settles O5: the write lands on CTRL, which runs the command word while `Idle`. -/
theorem cmdZeroOnlySetsIe : Obligations.CmdZeroOnlySetsIe := by
  refine ⟨fun v hv => decode_noCmd hv, fun ie s hs => exec_noCmd_idle ie hs, fun s u v hs hv hu => ?_⟩
  obtain ⟨_, _, _, _, _, hseq, _⟩ := hostNext_fields hu
  have hidle : u.seq = .idle := hseq.trans hs
  have hl : landing u.params s.params.base 4 = .reg 0 .ctrl := landing_hostNext (off := 0) hu rfl
  rw [step_write hu, hostWrite_ctrl hl (isBusy_idle u hidle), resolve_run, decode_noCmd hv, exec_noCmd_idle _ hidle]

/-- Settles O6: the sequencer drops a word of another code. -/
theorem commandWhileBusyDropped : Obligations.CommandWhileBusyDropped := fun i _ _ _ hs hne => exec_other i hs hne.symm

/-! ### A GEN that fails a check -/

section
variable {i : Inputs}

theorem genCheck_of_not_validSerial (h : ¬ validSerial i) : genCheck i = .serial := by
  rw [← serialOk_iff] at h
  simp [genCheck, h]

theorem genCheck_of_not_validSeed (hserial : validSerial i) (h : ¬ validSeed i) : genCheck i = .seed := by
  rw [← seedOk_iff] at h
  simp [genCheck, (serialOk_iff i).2 hserial, h]

theorem genCheck_of_not_validPin (hserial : validSerial i) (hseed : validSeed i) (h : ¬ validPin i) :
    genCheck i = .pin := by
  rw [← pinOk_iff] at h
  simp [genCheck, (serialOk_iff i).2 hserial, (seedOk_iff i).2 hseed, h]

theorem genCheck_of_not_validTime (hserial : validSerial i) (hseed : validSeed i) (hpin : validPin i)
    (h : ¬ validTime i) : genCheck i = .time := by
  rw [← timeOk_iff] at h
  simp [genCheck, (serialOk_iff i).2 hserial, (seedOk_iff i).2 hseed, (pinOk_iff i).2 hpin, h]

end

/-- Settles O16: each clause is one value of the validation. -/
theorem genValidationOrder : Obligations.GenValidationOrder := by
  refine ⟨fun v hv => decode_of_cmd v 1 (by omega) hv, fun ie s n hs => ⟨?_, ?_, ?_, ?_⟩⟩
  · intro h
    exact exec_gen_invalid ie s n hs _ (by simp) (genCheck_of_not_validSerial h)
  · intro hserial h
    exact exec_gen_invalid ie s n hs _ (by simp) (genCheck_of_not_validSeed hserial h)
  · intro hserial hseed h
    exact exec_gen_invalid ie s n hs _ (by simp) (genCheck_of_not_validPin hserial hseed h)
  · intro hserial hseed hpin h
    exact exec_gen_invalid ie s n hs _ (by simp) (genCheck_of_not_validTime hserial hseed hpin h)

/-! ### A GEN that passes validation -/

section
variable (p : Params) (i : Inputs) (o : Results)

/-- R706: what a GEN writes, from the BcdTime, the offset and the output length as arithmetic. -/
theorem genResults_eq_genWrites (h : validTime i) :
    genResults p i o =
      genWrites (timeBytes p i) (genCascade p i) (offsetArith p i) (genWord p i) (lenOf p i)
        (genSums (genWord p i) (lenOf p i) (pinDigits i)) o := by
  rw [genResults, timeBytes_eq p i h, genOffset_eq, genLen_eq]

/-- R604: the word has at least LEN digits, or LEN is 1. -/
theorem underflows_eq_false (h : lenOf p i = 1 ∨ 10 ^ (lenOf p i - 1) ≤ (genWord p i).toNat) :
    underflows (genWord p i) (lenOf p i) = false := by
  rw [← Bool.not_eq_true, underflows_iff _ _ (lenOf_bounds p i).1]
  omega

end

/-- Settles O17: no underflow, so the sums are those of the digits and the PIN, each rendered in one or two digits. -/
theorem genCode : Obligations.GenCode := by
  rintro ie s n hs hv _ _ _ _ _ _ rfl rfl rfl rfl hlen rfl rfl
  have ⟨_, _, hpin, htime⟩ := hv
  have ⟨_, h8⟩ := lenOf_bounds s.params s.inp
  rw [← genCascade_eq _ _ htime, ← genWord_eq] at hlen ⊢
  have hu := underflows_eq_false s.params s.inp hlen
  have hcode : genOutcome s.params s.inp = .noError := by rw [genOutcome, genLen_eq, hu, if_neg Bool.false_ne_true]
  rw [exec_gen_valid ie s n hs hv, hcode, genResults_eq_genWrites _ _ _ htime, genSums_eq _ _ _ hu h8, genWrites,
    codeDigits_eq _ hpin _ _ h8, sumBytes, packWord_pad, packWord_pad, charBytes, packBlock_pad, BitVec.ofNat_toNat,
    BitVec.setWidth_eq]
  rfl

/-- Settles O18: after an underflow there are no sums. -/
theorem genUnderflow : Obligations.GenUnderflow := by
  rintro ie s n hs hv _ _ _ _ rfl rfl rfl rfl h2 hlt
  have ⟨_, _, _, htime⟩ := hv
  rw [← genCascade_eq _ _ htime, ← genWord_eq] at hlt ⊢
  have hu : underflows (genWord s.params s.inp) (lenOf s.params s.inp) = true :=
    (underflows_iff _ _ (by omega)).2 ⟨h2, hlt⟩
  rw [exec_gen_valid ie s n hs hv, genResults_eq_genWrites _ _ _ htime, (genOutcome_underflow_iff _ _).2 hu, genSums,
    if_pos hu, BitVec.ofNat_toNat, BitVec.setWidth_eq]
  rfl

/-! ### ZEROIZE and the reserved codes -/

/-- R101: the reset column, register by register, but for CTRL and STATUS. -/
theorem held_of_reset {t : State} (hinp : t.inp = Inputs.reset) (hout : t.out = Results.reset) {r : Reg}
    (hctrl : r ≠ .ctrl) (hstatus : r ≠ .status) : held r t = if r = .flags then 0x000043D9 else 0 := by
  have hblock : ∀ w : Fin 4, getWord zeroBlock w = 0 := by decide
  have hround : ∀ k : Fin 5, rkBlock Results.reset k = zeroBlock := by decide
  cases r with
  | ctrl | status => contradiction
  | rk k w => simp [held, hout, hround, hblock]
  | _ => simp [held, hinp, hout, Inputs.reset, Results.reset, hblock, digitsWord]

/-- Settles O29: the rule of ZEROIZE leaves the reset column. -/
theorem zeroizeResult : Obligations.ZeroizeResult :=
  ⟨fun v hv => decode_of_cmd v 6 (by omega) hv, fun ie s _ hs =>
    ⟨zeroizeRule s, exec_own (.zeroize ie) hs (by simp [Instr.code]),
      fun _ hctrl hstatus => held_of_reset rfl rfl hctrl hstatus, rfl⟩⟩

/-- R301: the rows of the command map from 0x7 on. -/
theorem decodeCmd_reserved : ∀ (c : BitVec 4) (ie : Bool), 7 ≤ c.toNat →
    decodeCmd c ie = if c.toNat = 7 then .rsvd7 ie else .rsvdHigh (BitVec.ofNat 3 (c.toNat % 8)) ie := by decide

/-- R300, R301: the command word of a reserved code. -/
theorem decode_reserved {v : Word} (h : 7 ≤ v.toNat % 16) :
    decode v = if v.toNat % 16 = 7 then .rsvd7 (v.getLsbD 8)
      else .rsvdHigh (BitVec.ofNat 3 (v.toNat % 8)) (v.getLsbD 8) := by
  rw [← cmdField_toNat] at h
  have hlow : v.toNat % 16 % 8 = v.toNat % 8 := by omega
  rw [decode, decodeCmd_reserved _ _ h, cmdField_toNat, hlow, ieField]

/-- R301, as the arithmetic of CMD. -/
theorem rsvdHigh_code : ∀ (low : BitVec 3) (ie : Bool),
    (Instr.rsvdHigh low ie).code = BitVec.ofNat 4 (8 + low.toNat) := by decide

/-- R704: a completion leaves LASTCMD. -/
theorem ruleOf_lastCmd (i : Instr) (s : State) (hc : i.code ≠ 0) :
    (ruleOf i s).status.lastCmd = s.status.lastCmd := by
  obtain ⟨_, _, _, _, ht, _⟩ := ruleOf_fields i s hc
  rw [ht, completed]

/-- Settles O30: after its acceptance the command is in flight, so the second `exec` is its completion. -/
theorem reservedCodesFail : Obligations.ReservedCodesFail := by
  refine ⟨fun v hv => decode_reserved hv, fun ie s n hs => ?_, fun low ie s n hs => ?_, fun i s hs hi => ?_⟩
  · exact exec_own (.rsvd7 ie) hs (by simp [Instr.code])
  · exact exec_own (.rsvdHigh low ie) (rsvdHigh_code low ie ▸ hs) (rsvdHigh_code_ne low ie)
  · have h0 : i.code ≠ 0 := fun h => by simp [h] at hi
    exact ⟨_, _, exec_idle i hs h0, rfl, exec_own i rfl h0, ruleOf_lastCmd i _ h0⟩

/-! ### The engine's cycles -/

/-- R131: with no host operation left, a cycle that is not the last counts one down. -/
theorem step_counts {s : State} {c : BitVec 4} {k : Nat} (hp : s.pending = []) (hk : 1 ≤ k)
    (hs : s.seq = .busy c (k + 1)) : step s = .next { s with seq := .busy c k } := by
  rw [step_engine hs (engineNext_alone hs hp), if_neg (by omega), Nat.add_sub_cancel]

theorem run_one (s : State) : Host.Core.run core 1 s = step s := by
  cases h : step s with
  | next t => exact run_succ_next h 0
  | fault f => exact run_succ_fault h 0
  | refused f => exact run_succ_refused h 0

/-- Settles O35, by induction on the cycles left. -/
theorem completesAfterLatency : Obligations.CompletesAfterLatency := by
  intro s c k hp hk
  induction k, hk using Nat.le_induction generalizing s with
  | base =>
    intro hs
    have hself : s = { s with seq := .busy c 1 } := by rw [← hs]
    refine ⟨fun j hj => ?_, ?_⟩
    · obtain rfl : j = 0 := by omega
      exact (run_zero s).trans (congrArg _ hself)
    · rw [run_one, step_engine hs (engineNext_alone hs hp), if_pos le_rfl, ← hself]
  | succ k hk ih =>
    intro hs
    have hstep := step_counts hp hk hs
    obtain ⟨hcount, hlast⟩ := ih { s with seq := .busy c k } hp rfl
    refine ⟨fun j hj => ?_, ?_⟩
    · cases j with
      | zero => rw [run_zero, Nat.sub_zero, ← hs]
      | succ j => rw [run_succ_next hstep, hcount j (by omega), Nat.add_sub_add_right]
    · rw [run_succ_next hstep, hlast]

/-- R705, R908: a step from `Busy` ends the command, or uses up a cycle of it or a choice of the environment. -/
theorem step_busy_progress {s t : State} {c : BitVec 4} {n : Nat} (hst : step s = .next t) (hs : s.seq = .busy c n)
    (hc : c ≠ 0) : t.seq = .idle ∨ ∃ m, t.seq = .busy c m ∧ t.turns.length + m < s.turns.length + n := by
  cases stepped hst with
  | quiet hq => cases hq.symm.trans hs
  | counted u _ _ hu hq hn ht =>
    cases hq.symm.trans hs
    obtain ⟨_, _, hturns, _⟩ := engineNext_some hu
    have hle : u.turns.length ≤ s.turns.length := by
      rcases hturns with h | h <;> simp [h]
    have hlt : u.turns.length + (n - 1) < s.turns.length + n := by omega
    exact .inr ⟨n - 1, by rw [ht], by rw [ht]; exact hlt⟩
  | ended u i _ _ _ hcode ht => exact .inl (ht ▸ (ruleOf_done i u hcode).2)
  | stuck _ _ _ hq => cases hq.symm.trans hs; exact absurd rfl hc
  | host u op hu hm =>
    rcases hm.busy_kept hu (isBusy_busy s c n hs) with ⟨_, hseq⟩ | hidle
    · obtain ⟨_, _, _, ⟨hq, _⟩ | ⟨_, _, _, hused⟩⟩ := hostNext_some hu
      · cases hq.symm.trans hs
      · obtain ⟨_, _, hturns⟩ := hm.host_fields
        exact .inr ⟨n, hseq.trans hs, by rw [hturns, hused, List.length_cons]; omega⟩
    · exact .inl hidle

/-- Settles O36, by strong induction on the choices and the cycles left. -/
theorem busyEndsWithinBound : Obligations.BusyEndsWithinBound := by
  intro s c n hs hc
  induction hm : s.turns.length + n using Nat.strong_induction_on generalizing s n with
  | _ m ih =>
    subst hm
    cases hst : step s with
    | fault f => exact ⟨1, by omega, by rw [run_succ_fault hst]; trivial⟩
    | refused f => exact ⟨1, by omega, by rw [run_succ_refused hst]; trivial⟩
    | next t =>
      rcases step_busy_progress hst hs hc with hidle | ⟨m, hbusy, hlt⟩
      · exact ⟨1, by omega, by rw [run_succ_next hst]; exact hidle⟩
      · obtain ⟨k, hk, hend⟩ := ih _ hlt t m hbusy rfl
        exact ⟨k + 1, by omega, by rw [run_succ_next hst]; exact hend⟩

/-- Settles O34: neither agent moves. -/
theorem idleStepChangesNothing : Obligations.IdleStepChangesNothing := by
  intro s hs hnone
  rcases agents s with ⟨op, u, hu, _⟩ | ⟨u, hu, _⟩ | ⟨_, _, _, hstep⟩
  · cases hnone.symm.trans hu
  · obtain ⟨_, ⟨c, n, hq⟩, _⟩ := engineNext_some hu
    cases hs.symm.trans hq
  · exact hstep

/-! ### Writes while `Busy` -/

/-- R101, R208: the registers that a `Busy` engine refuses to write are CTRL and those a command reads. -/
theorem mem_ctrl_inputOffsets_iff {off : Nat} {r : Reg} (h : regAt off = some r) :
    off ∈ 0x000 :: inputOffsets ↔ writable r = true ∧ r ≠ .status := by
  have hm : ∀ q ∈ regMap, q.1 ∈ 0x000 :: inputOffsets ↔ writable q.2 = true ∧ q.2 ≠ .status := by decide
  exact hm _ (regAt_mem h)

/-- R101: the offset of STATUS. -/
theorem regAt_status_iff {off : Nat} {r : Reg} (h : regAt off = some r) : off = 0x004 ↔ r = .status := by
  have hm : ∀ q ∈ regMap, q.1 = 0x004 ↔ q.2 = .status := by decide
  exact hm _ (regAt_mem h)

/-- R703: a write that lands on a writable register other than STATUS is dropped. -/
theorem step_write_busy {s u : State} {addr n off : Nat} {r : Reg} {v : Word} (hb : isBusy s = true)
    (hl : landing s.params addr n = .reg off r) (hw : writable r = true) (hr : r ≠ .status)
    (hu : hostNext s = some (.write addr n v, u)) : step s = .next (dropWrite u) := by
  obtain ⟨hparams, _, _, _, _, hseq, _⟩ := hostNext_fields hu
  rw [← hparams] at hl
  rw [step_write hu, hostWrite_busy hl hw hr (by rw [← hb, isBusy, isBusy, hseq]), resolve_answer]

/-- Settles O38, by the register at the offset: none, STATUS, another that takes a write, or a read-only one. -/
theorem busyWriteDropped : Obligations.BusyWriteDropped := by
  intro s u off v c n hs hlt ha hu
  change step s = if off ∈ 0x000 :: inputOffsets then _ else _
  cases hat : regAt off with
  | none =>
    rw [step_write_busError (landing_unmapped hlt ha hat s.params) hu]
    rcases (regAt_eq_none_iff hlt ha).1 hat with rfl | rfl <;> rfl
  | some r =>
    have hl := landing_reg hat s.params
    split_ifs with hmem hstatus
    · obtain ⟨hw, hr⟩ := (mem_ctrl_inputOffsets_iff hat).1 hmem
      exact step_write_busy (isBusy_busy s c n hs) hl hw hr hu
    · obtain rfl := (regAt_status_iff hat).1 hstatus
      rw [step_write hu, hostWrite_status (landing_hostNext hu hat), resolve_answer]
    · rw [mem_ctrl_inputOffsets_iff hat, ne_eq, ← regAt_status_iff hat] at hmem
      exact step_write_readOnly hl (by simpa [hstatus] using hmem) hu

/-! ### HAZ -/

/-- R703: `dropsWrite` says that the host's next operation is a write that a `Busy` engine refuses. -/
theorem dropsWrite_iff (s : State) : dropsWrite s = true ↔
    ∃ addr n v u off r, hostNext s = some (.write addr n v, u) ∧ isBusy s = true
      ∧ landing s.params addr n = .reg off r ∧ writable r = true ∧ r ≠ .status := by
  constructor
  · intro h
    unfold dropsWrite at h
    split at h
    · next c m ts addr n v rest hs ht hp =>
      split at h
      · next off r hl =>
        obtain ⟨hw, hr⟩ := Bool.and_eq_true_iff.1 h
        exact ⟨addr, n, v, _, off, r, hostNext_busy hs ht hp (by simp), isBusy_busy s c m hs, hl, hw,
          of_decide_eq_true hr⟩
      · cases h
    · cases h
  · rintro ⟨addr, n, v, u, off, r, hu, hb, hl, hw, hr⟩
    obtain ⟨hp, _, _, ⟨hq, _⟩ | ⟨c, m, hs, ht⟩⟩ := hostNext_some hu
    · simp [isBusy, hq] at hb
    · simp [dropsWrite, hs, ht, hp, hl, hw, hr]

/-- R703. -/
theorem haz_of_dropsWrite {s t : State} (hst : step s = .next t) (h : dropsWrite s = true) : t.status.haz = true := by
  obtain ⟨addr, n, v, u, off, r, hu, hb, hl, hw, hr⟩ := (dropsWrite_iff s).1 h
  cases hst.symm.trans (step_write_busy hb hl hw hr hu)
  rfl

/-- R134: no completion writes HAZ. -/
theorem ruleOf_haz (i : Instr) (s : State) (hc : i.code ≠ 0) : (ruleOf i s).status.haz = s.status.haz := by
  obtain ⟨_, _, _, _, ht, _⟩ := ruleOf_fields i s hc
  rw [ht, completed]

/-- R701, R702: a command word run while `Idle` leaves HAZ. -/
theorem exec_idle_haz {i : Instr} {s t : State} (hs : s.seq = .idle) (h : exec i s = .next t) :
    t.status.haz = s.status.haz := by
  rcases exec_idle_fields hs h with ⟨rfl, _⟩ | ⟨rfl, _⟩ <;> rfl

/-- R134, R703: what a host operation does to HAZ. -/
theorem HostMoved.haz_cases {s u t : State} {op : BusOp} (hm : HostMoved s u t op) (hu : hostNext s = some (op, u)) :
    t.status.haz = s.status.haz ∨ t.status.haz = false ∨ dropsWrite s = true := by
  obtain ⟨_, _, hstatus, _, _, hseq, _⟩ := hostNext_fields hu
  rw [← hstatus]
  cases hm with
  | status _ _ _ v _ ht =>
    rw [ht, writeStatus_status, clearStatus]
    cases v.getLsbD 3
    · exact .inl (Bool.and_true _)
    · exact .inr (.inl (Bool.and_false _))
  | dropped a n off v r hl hw hr hb =>
    exact .inr (.inr ((dropsWrite_iff s).2 ⟨a, n, v, u, off, r, hu, hb, hl, hw, hr⟩))
  | command _ _ _ _ _ hidle ht => exact .inl (exec_idle_haz (hseq.trans hidle) ht)
  | stored _ _ _ _ _ _ _ _ _ _ ht | read _ _ _ ht | poll _ _ _ _ ht | wfi ht =>
    exact .inl (congrArg (·.status.haz) ht)
  | reset ht => exact .inr (.inl (by rw [ht]; rfl))

/-- The invariant shuts out a command in flight with code 0 (R131). -/
theorem busy_code_ne_zero {s : State} {c : BitVec 4} {n : Nat} (h : inv s = true) (hs : s.seq = .busy c n) :
    c ≠ 0 := by
  obtain ⟨_, _, _, hseq, _⟩ := (inv_iff s).1 h
  obtain ⟨hc, _⟩ := (seqOk_iff s).1 hseq c n hs
  exact hc

/-- R134, R703: what a step does to HAZ. -/
theorem step_haz_cases {s t : State} (h : inv s = true) (hst : step s = .next t) :
    t.status.haz = s.status.haz ∨ t.status.haz = false ∨ dropsWrite s = true := by
  cases stepped hst with
  | quiet _ ht => exact .inl (by rw [ht])
  | counted u c n hu _ _ ht =>
    obtain ⟨_, _, hstatus, _⟩ := engineNext_fields hu
    exact .inl ((congrArg (·.status.haz) ht).trans (congrArg Status.haz hstatus))
  | ended u i n hu _ hc ht =>
    obtain ⟨_, _, hstatus, _⟩ := engineNext_fields hu
    exact .inl (by rw [ht, ruleOf_haz i u hc, hstatus])
  | stuck u n _ hq => exact absurd rfl (busy_code_ne_zero h hq)
  | host u op hu hm => exact hm.haz_cases hu

/-- Settles O60: only a dropped write raises HAZ, and a safe step drops none. -/
theorem hazMeansDroppedWrite : Obligations.HazMeansDroppedWrite := by
  intro s t hinv hst
  have hrise : s.status.haz = false → t.status.haz = true → dropsWrite s = true := by
    intro h0 h1
    rcases step_haz_cases hinv hst with hkept | hfalls | hdrop
    · exact absurd (h0.symm.trans (hkept.symm.trans h1)) Bool.false_ne_true
    · exact absurd (hfalls.symm.trans h1) Bool.false_ne_true
    · exact hdrop
  refine ⟨haz_of_dropsWrite hst, hrise, fun hsafe h0 => ?_⟩
  obtain ⟨hnodrop, _⟩ := Bool.and_eq_true_iff.1 hsafe
  exact Bool.eq_false_iff.2 fun h1 => by simp [hrise h0 h1] at hnodrop

end Sys2Proof.Machine
end

section
/-! SUPPORT. The statements of 60_exceptions.md and 70_reset_and_hazards.md: the error codes as STATUS shows them (R801), a
failed completion (R803), the reset input (R900, R901), and the commands that find nothing loaded after it (R902). -/

namespace Sys2Proof.Machine

/-! ### The error codes in STATUS -/

/-- R103: bits [11:0] of STATUS are not reserved. -/
theorem readReg_status_getLsbD (s : State) {i : Nat} (hi : i < 12) :
    (readReg .status s).getLsbD i = (statusWord s).getLsbD i := by
  have hmask : (fieldMask .status).getLsbD i = true := by
    revert i
    decide
  rw [readReg_eq_and (by simp), BitVec.getLsbD_and, hmask, Bool.and_true, held]

/-- R103: bits [7:4] of a read of STATUS are ERRCODE. -/
theorem readReg_status_errCode (s : State) : (readReg .status s).extractLsb' 4 4 = errBits s.status.errCode := by
  apply BitVec.eq_of_getLsbD_eq
  intro i hi
  rw [BitVec.getLsbD_extractLsb', readReg_status_getLsbD s (by omega), statusWord_getLsbD]
  interval_cases i <;> simp

/-- R103: bits [11:8] of a read of STATUS are LASTCMD. -/
theorem readReg_status_lastCmd (s : State) : (readReg .status s).extractLsb' 8 4 = s.status.lastCmd := by
  apply BitVec.eq_of_getLsbD_eq
  intro i hi
  rw [BitVec.getLsbD_extractLsb', readReg_status_getLsbD s (by omega), statusWord_getLsbD]
  interval_cases i <;> simp

/-- Settles O31: the numbers are those of `errBits`, and a read of STATUS shows the two fields bit by bit. -/
theorem errorNumbers : Obligations.ErrorNumbers :=
  ⟨rfl, fun s => ⟨readReg_status_errCode s, readReg_status_lastCmd s⟩⟩

/-! ### A failed completion -/

/-- R704: an instruction run while `Busy` that leaves the engine `Idle` is the completion of the command in flight. -/
theorem exec_busy_to_idle {i : Instr} {s t : State} (hs : isBusy s = true) (h : exec i s = .next t)
    (ht : isBusy t = false) : i.code ≠ 0 ∧ t = ruleOf i s := by
  rcases exec_cases h with ⟨hq, _⟩ | ⟨hq, _⟩ | ⟨_, _, hc, hrule⟩ | ⟨c, n, hq, _, rfl⟩
  · simp [isBusy_idle s hq] at hs
  · simp [isBusy_idle s hq] at hs
  · exact ⟨hc, hrule⟩
  · simp [isBusy_busy (dropWrite s) c n hq] at ht

/-- Settles O57: the step is a completion, and a failed one writes STATUS alone. -/
theorem failedCommandWritesNoResult : Obligations.FailedCommandWritesNoResult := by
  intro i s t hs h ht herr hcode
  obtain ⟨hc, rfl⟩ := exec_busy_to_idle hs h ht
  exact ruleOf_failed i s hc herr hcode

/-! ### Reset -/

/-- R900: the host's turn asserts reset and does nothing else. -/
theorem step_reset {s u : State} (hu : hostNext s = some (.reset, u)) : step s = .next (resetEngine u) := by
  rw [step_host hu]
  rfl

/-- R101, R900: the reset column, CTRL and STATUS included. -/
theorem held_resetEngine (r : Reg) (s : State) : held r (resetEngine s) = if r = .flags then 0x000043D9 else 0 := by
  cases r with
  | ctrl => simp [held, ctrlWord]
  | status => simp [held, statusWord, Status.reset, errBits, isBusy]
  | _ => exact held_of_reset rfl rfl (by simp) (by simp)

/-- Settles O48: `Idle` or `Busy`, the step is `resetEngine`. -/
theorem resetOperation : Obligations.ResetOperation := fun _ u hu =>
  ⟨resetEngine u, step_reset hu, fun r => held_resetEngine r u, rfl, rfl, rfl⟩

/-- Settles O52, part by part of the invariant. -/
theorem invAtReset : Obligations.InvAtReset :=
  (inv_iff State.reset).2 ⟨by decide, inpOk_reset, outOk_reset, rfl, rfl⟩

/-! ### The commands after reset -/

/-- R701, R704, R705: in an `Idle` state, with nothing else for the host to do, a command word of latency 1 is accepted by
one step and completed by the next. -/
theorem run_two_placeCommand {s : State} {v : Word} {i : Instr} (hv : decode v = i) (hs : s.seq = .idle)
    (hp : s.pending = []) (hc : i.code ≠ 0) (hl : latency s.params.lat i.code = 1) :
    Host.Core.run core 2 (placeCommand v s)
      = .next (ruleOf (decode (i.code.setWidth 32)) (accept i.code i.ie s)) := by
  have hplace : { placeCommand v s with pending := s.pending } = s := by rw [placeCommand, ← hs]
  have haccept : step (placeCommand v s) = .next (accept i.code i.ie s) := by
    rw [stepRunsWrittenCommand (placeCommand v s) v s.pending rfl rfl, hplace, hv, exec_idle i hs hc]
  have hseq : (accept i.code i.ie s).seq = .busy i.code 1 := by rw [accept, hl]
  have hown : (decode (i.code.setWidth 32)).code = i.code := decode_cmd_code i.code
  have hcomplete : step (accept i.code i.ie s) = exec (decode (i.code.setWidth 32)) (accept i.code i.ie s) :=
    (stepRunsCommandInFlight _ _ _ 1 hseq (engineNext_alone hseq hp)).1 le_rfl
  rw [run_succ_next haccept, run_one, hcomplete]
  exact exec_own _ (hseq.trans (by rw [hown])) (by rwa [hown])

/-- Settles O50: the three commands complete in the second step, each by its own rule. -/
theorem nothingLoadedAfterReset : Obligations.NothingLoadedAfterReset := by
  have hgen : Host.Core.run core 2 (State.reset.withFetchWord 32 0x1) = _ :=
    run_two_placeCommand (i := .gen false) rfl rfl rfl (by decide) rfl
  have htime : Host.Core.run core 2 (State.reset.withFetchWord 32 0x2) = _ :=
    run_two_placeCommand (i := .time false) rfl rfl rfl (by decide) rfl
  have haesenc : Host.Core.run core 2 (State.reset.withFetchWord 32 0x5) = _ :=
    run_two_placeCommand (i := .aesenc false) rfl rfl rfl (by decide) rfl
  simp only [Obligations.NothingLoadedAfterReset, List.map_cons, List.map_nil]
  rw [hgen, htime, haesenc]
  decide

end Sys2Proof.Machine
end
